-- ==== Sys2Proof/Word.lean ====
section
/-! DEFINITION. The words and the small enumerations of the block: bytes, the four operand widths and the four
items a `diagnostic` selects (spec/00_scope.md R8, R9, spec/30_encoding.md R120, R121, spec/46_diagnostic.md R290). -/

namespace Sys2Proof

/-- A byte, 8 bits (R8). -/
abbrev Byte := BitVec 8

/-- A width in bytes, 1 to 4: the operand width `w = k + 1` of an instruction (R121), and also the word
width `W`, whose legal values are 1, 2, 3 and 4 (R6, R49). -/
inductive Width where
  | w1
  | w2
  | w3
  | w4
deriving DecidableEq, Repr

/-- The number of bytes of a width. -/
def Width.bytes : Width → Nat
  | .w1 => 1
  | .w2 => 2
  | .w3 => 3
  | .w4 => 4

/-- What a `diagnostic` reports, in the order of its selector `k = 0, 1, 2, 3` (R290). -/
inductive DiagItem where
  | dataPointer
  | returnPointer
  | programCounter
  | wordWidth
deriving DecidableEq, Repr

end Sys2Proof
end

