-- ==== Sys2Proof/Syntax.lean ====
section
/-! DEFINITION. The instructions, one constructor per row of spec/opcode_table.json (spec/30_encoding.md R128).
Every other operand is implicit, on a stack (R125). -/

namespace Sys2Proof

/-- An instruction. `skip` is the skip bit `s` and `w` the operand width (R121). -/
inductive Instr where
  /-- opcode 0, R180 -/
  | add (skip : Bool) (w : Width)
  /-- opcode 1, R181 -/
  | and (skip : Bool) (w : Width)
  /-- opcode 2, R182 -/
  | xor (skip : Bool) (w : Width)
  /-- opcode 3, R183 -/
  | shift (skip : Bool) (w : Width)
  /-- opcode 4, R200 -/
  | swap (skip : Bool) (w : Width)
  /-- opcode 5, compare, R184 -/
  | cmp (skip : Bool) (w : Width)
  /-- opcode 6, R220 -/
  | store (skip : Bool) (w : Width)
  /-- opcode 7, R221 -/
  | load (skip : Bool) (w : Width)
  /-- opcode 8, duplicate, R201 -/
  | dup (skip : Bool) (w : Width)
  /-- opcode 9, R202 -/
  | drop (skip : Bool) (w : Width)
  /-- opcode 10, to-return, R203 -/
  | tor (skip : Bool) (w : Width)
  /-- opcode 11, from-return, R204 -/
  | fromr (skip : Bool) (w : Width)
  /-- opcode 12, R240 -/
  | jump (skip : Bool) (w : Width)
  /-- opcode 13, literal, with its immediate: the `w` bytes after the opcode byte, the first most
  significant (R127, R241) -/
  | lit (skip : Bool) (w : Width) (imm : BitVec 32)
  /-- opcode 14, device-interrupt, R264 -/
  | dev (skip : Bool) (w : Width)
  /-- opcode 15, diagnostic, R290: its width code is a selector -/
  | diag (skip : Bool) (item : DiagItem)
  /-- continuation bit 0, R153: bits 6..0 are ignored (R122) and kept only so that encoding loses nothing -/
  | halt (ignored : BitVec 7)
deriving DecidableEq, Repr

end Sys2Proof
end

