-- ==== Sys2Proof/WellFormed.lean ====
section
/-! DEFINITION. Which terms of `Instr` stand for an instruction of the hardware: all but a literal whose
immediate does not fit in its `w` bytes (spec/30_encoding.md R127). Every other field is exact by its type. -/

namespace Sys2Proof

/-- The one check on a term: a literal's immediate is below `2^(8*w)` (R127). -/
def Instr.wf : Instr → Bool
  | .lit _ w imm => decide (imm.toNat < 2 ^ (8 * w.bytes))
  | .add _ _ => true
  | .and _ _ => true
  | .xor _ _ => true
  | .shift _ _ => true
  | .swap _ _ => true
  | .cmp _ _ => true
  | .store _ _ => true
  | .load _ _ => true
  | .dup _ _ => true
  | .drop _ _ => true
  | .tor _ _ => true
  | .fromr _ _ => true
  | .jump _ _ => true
  | .dev _ _ => true
  | .diag _ _ => true
  | .halt _ => true

end Sys2Proof
end

