-- ==== Sys2Proof/Decode.lean ====
section
/-! DEFINITION. Decoding bytes to instructions and encoding them back (spec/30_encoding.md R120 to R132), with the
byte-order helpers the memory and stack operations share (spec/00_scope.md R9, spec/20_memory.md R87). -/

namespace Sys2Proof

/-- `byte_i(v) = (v >> (8*i)) & 0xFF` (R9). -/
def byteOf (i v : Nat) : Byte := BitVec.ofNat 8 (v >>> (8 * i))

/-- The `n` low bytes of `v`, the most significant first: `byte_{n-1}(v), .., byte_0(v)` (R42, R87). -/
def bytesOf : Nat → Nat → List Byte
  | 0, _ => []
  | n + 1, v => byteOf n v :: bytesOf n v

/-- The value of a byte sequence whose first byte is the most significant (R87, R127). -/
def bigEndian (bs : List Byte) : Nat := bs.foldl (fun v b => v * 256 + b.toNat) 0

/-- The width code `k` of the instruction byte: `w = k + 1` (R121). -/
def widthOfCode (k : BitVec 2) : Width :=
  match k.toNat with
  | 0 => .w1
  | 1 => .w2
  | 2 => .w3
  | _ => .w4

/-- The item a `diagnostic` of selector `k` reports (R290). -/
def itemOfCode (k : BitVec 2) : DiagItem :=
  match k.toNat with
  | 0 => .dataPointer
  | 1 => .returnPointer
  | 2 => .programCounter
  | _ => .wordWidth

/-- How many immediate bytes follow the instruction byte `ib`: `w` for a literal, else none (R123). -/
def immLength (ib : Byte) : Nat :=
  if ib.getLsbD 7 && ib.extractLsb' 0 4 == 13#4 then (widthOfCode (ib.extractLsb' 4 2)).bytes else 0

/-- The instruction of the instruction byte `ib`, with `imm` the immediate if it is a literal (R124, R128, R129).
Total: no byte is illegal (R130). -/
def decodeByte (ib : Byte) (imm : Nat) : Instr :=
  if ib.getLsbD 7 then
    let s := ib.getLsbD 6
    let k := ib.extractLsb' 4 2
    let w := widthOfCode k
    match (ib.extractLsb' 0 4).toNat with
    | 0 => .add s w
    | 1 => .and s w
    | 2 => .xor s w
    | 3 => .shift s w
    | 4 => .swap s w
    | 5 => .cmp s w
    | 6 => .store s w
    | 7 => .load s w
    | 8 => .dup s w
    | 9 => .drop s w
    | 10 => .tor s w
    | 11 => .fromr s w
    | 12 => .jump s w
    | 13 => .lit s w (BitVec.ofNat 32 imm)
    | 14 => .dev s w
    | _ => .diag s (itemOfCode k)
  else .halt (ib.extractLsb' 0 7)

/-- Why a byte sequence is no instruction: it is empty, or a literal's immediate bytes are cut off. No byte VALUE
is refused (R130). -/
inductive DecodeError where
  | noByte
  | truncatedLiteral
deriving DecidableEq, Repr

/-- What decoding a byte sequence gives: an instruction with the bytes after it, or the reason there is none. -/
inductive Decoded where
  | instr (i : Instr) (rest : List Byte)
  | refused (why : DecodeError)
deriving DecidableEq, Repr

/-- Decode one instruction from the front of a byte sequence (R123, R124, R127). -/
def decode : List Byte → Decoded
  | [] => .refused .noByte
  | ib :: rest =>
    if immLength ib ≤ rest.length then
      .instr (decodeByte ib (bigEndian (rest.take (immLength ib)))) (rest.drop (immLength ib))
    else .refused .truncatedLiteral

/-- The width code of a width (R121). -/
def Width.code : Width → BitVec 2
  | .w1 => 0
  | .w2 => 1
  | .w3 => 2
  | .w4 => 3

/-- The selector of a diagnostic item (R290). -/
def DiagItem.code : DiagItem → BitVec 2
  | .dataPointer => 0
  | .returnPointer => 1
  | .programCounter => 2
  | .wordWidth => 3

/-- The instruction byte with continuation bit 1: `1 s k k o o o o` (R120). -/
def instrByte (skip : Bool) (k : BitVec 2) (op : BitVec 4) : Byte :=
  1#1 ++ BitVec.ofBool skip ++ k ++ op

/-- The bytes of an instruction: its instruction byte, and for a literal the immediate bytes after it (R132). -/
def encode : Instr → List Byte
  | .add s w => [instrByte s w.code 0]
  | .and s w => [instrByte s w.code 1]
  | .xor s w => [instrByte s w.code 2]
  | .shift s w => [instrByte s w.code 3]
  | .swap s w => [instrByte s w.code 4]
  | .cmp s w => [instrByte s w.code 5]
  | .store s w => [instrByte s w.code 6]
  | .load s w => [instrByte s w.code 7]
  | .dup s w => [instrByte s w.code 8]
  | .drop s w => [instrByte s w.code 9]
  | .tor s w => [instrByte s w.code 10]
  | .fromr s w => [instrByte s w.code 11]
  | .jump s w => [instrByte s w.code 12]
  | .lit s w imm => instrByte s w.code 13 :: bytesOf w.bytes imm.toNat
  | .dev s w => [instrByte s w.code 14]
  | .diag s item => [instrByte s item.code 15]
  | .halt ignored => [0#1 ++ ignored]

/-- The first `n` bytes of a number whose least significant byte comes first: the bytes of a word of
spec/opcode_table.json, whose bit 0 is the least significant bit of the first byte. -/
def lowBytes : Nat → Nat → List Byte
  | 0, _ => []
  | n + 1, w => BitVec.ofNat 8 w :: lowBytes n (w / 256)

/-- The bytes of a table word of `nbits` bits in memory order, then zero bytes up to the longest instruction
(a literal of width 4: five bytes). -/
def tableBytes (nbits w : Nat) : List Byte := lowBytes (nbits / 8) w ++ List.replicate (5 - nbits / 8) 0

/-- The instruction read from a word of the opcode table; `none` where there is not even one byte. -/
def decodeTableWord (nbits w : Nat) : Option Instr :=
  if nbits < 8 then none
  else
    match decode (tableBytes nbits w) with
    | .instr i _ => some i
    | .refused _ => none

end Sys2Proof
end

