-- ==== Sys2Proof/Config.lean ====
section
/-! DEFINITION. What the block takes from outside: the answer of a device to one call, and the free value that
stands for every answer no launch input fixes (spec/45_device.md R266, R268, spec/93_implementation_defined.md
I6 to I9). The other parameters of spec/00_scope.md R6 (`W`, the image, the registered devices, `DIAG_PORT`) are
fields of the state or arguments of the host's operations. -/

namespace Sys2Proof

/-- What one device call does (R266, R268). -/
inductive DeviceReply where
  /-- the callback never returns (R268, I7) -/
  | hangs
  /-- the callback writes these RAM bytes, in this order, and returns this byte (R266, I9) -/
  | returns (writes : List Host.Cell) (result : Byte)
  /-- the callback touches state other than RAM or re-enters the block: outside the spec (R266, R268, I6, I8) -/
  | breaksContract
deriving DecidableEq, Repr, Inhabited

/-- FREE VALUE (log entry 1): the answer of the callback bound as `dev` to the call number `call` with selector
`sel` while RAM is `ram`. The spec assumes nothing about it (R268), so it has no body. -/
opaque Config.deviceReply (dev call : Nat) (sel : Byte) (ram : List Host.Cell) : DeviceReply

end Sys2Proof
end

