-- ==== Sys2Proof/Machine/State.lean ====
section
/-! DEFINITION. The state of the block (spec/10_state.md R30 to R56), the reasons a step can stop, and the state
after initialisation (R56, spec/70_reset_and_hazards.md R330). -/

namespace Sys2Proof.Machine

/-- The status register (R31). -/
inductive Status where
  | running
  | halted
  | panic
deriving DecidableEq, Repr

/-- One of the two stacks: a 256-byte circular buffer and the 8-bit index of the slot the next push writes
(R36). The whole buffer is state, not only the bytes below the pointer (R54). -/
structure Stack where
  buf : Vector Byte 256
  p : BitVec 8
deriving DecidableEq, Repr

/-- A byte space, ROM or RAM, as the bytes that are not 0, by strictly rising address; an address that is not
listed reads 0, the reset contents of RAM and the fill of ROM (R82, R83). -/
abbrev Memory := List Host.Cell

/-- A valid entry of the device table: its selector, and a number naming the host callback it binds (R51). -/
structure DeviceEntry where
  sel : Byte
  dev : Nat
deriving DecidableEq, Repr

/-- The device table `T[0..15]`; an entry that is not valid is `none` (R51). -/
abbrev DeviceTable := Vector (Option DeviceEntry) 16

/-- The skip-flag latch: the skip bit of the instruction byte, and whether the instruction performs its normal
effect (R48, R154). -/
structure SkipLatch where
  flag : Bool
  exec : Bool
deriving DecidableEq, Repr

/-- The name of a runtime fault, for the model's fault record (R300, R302). -/
inductive PanicCause where
  | unregisteredDevice
  | ramOutOfRange
  | romOutOfRange
deriving DecidableEq, Repr

/-- A host-visible event (R13): a RAM byte write (R86), a device call with its result (R266), a diagnostic
output (R290). -/
inductive Event where
  | ramWrite (addr : Nat) (value : Byte)
  | deviceCall (entry : Fin 16) (sel : Byte) (result : Byte)
  | diag (item : DiagItem) (value : BitVec 33)
deriving DecidableEq, Repr

/-- The state of the block. -/
structure State where
  /-- the program counter, 33 bits (R33) -/
  pc : BitVec 33
  /-- the status register (R31) -/
  status : Status
  /-- the data stack (R36) -/
  D : Stack
  /-- the return stack (R36) -/
  R : Stack
  /-- RAM (R52) -/
  ram : Memory
  /-- ROM (R52) -/
  rom : Memory
  /-- the device table (R51) -/
  devices : DeviceTable
  /-- the configuration register, the word width (R49) -/
  W : Width
  /-- the start latch (R50) -/
  started : Bool
  /-- the skip-flag latch (R48) -/
  skip : SkipLatch
  /-- configuration: whether the diagnostic output port exists (R6; log entry 8) -/
  diagPort : Bool
  /-- the model's record of the events, oldest first (R13; log entry 5) -/
  events : List Event
  /-- the model's fault record (R12, R302; log entry 4) -/
  panicCause : Option PanicCause
  /-- input: what the devices will answer, the next call's reply first (R268; log entry 1) -/
  deviceReplies : List DeviceReply
  /-- the number of device calls made, the index of the free value (log entry 1) -/
  deviceCalls : Nat
deriving DecidableEq, Repr

/-- Why the machine is stuck. The runtime faults of R300 are no `Fault`: they lead to a next state whose status
is `panic` (R301). -/
inductive Fault where
  /-- Raised by `dev` when the called device never returns: the tick never ends (R268, I7). Safe: the model stops
  where the hardware makes no further step either. -/
  | deviceNeverReturns
deriving DecidableEq, Repr

/-- Why the model gives no meaning. -/
inductive Refusal where
  /-- Raised by the dispatch for an instruction without a meaning; no arm raises it. Safe. -/
  | notModelled (mnemonic : String)
  /-- Raised by `dev` when the called device touches anything but RAM or re-enters the block, which the spec puts
  outside itself (R266, R268, I6, I8). Safe: the model says nothing of such a run. -/
  | deviceOutsideContract
deriving DecidableEq, Repr

/-- A stack of zeros with pointer 0 (R37). -/
def Stack.zeroed : Stack := { buf := Vector.replicate 256 0, p := 0 }

/-- The state after initialisation (R56, R330) with the default word width 3 and the empty image. The latch, the
image, `diagPort` and the two device inputs are values the model names (log entries 1, 6, 8 and 9). -/
def State.reset : State where
  pc := 0
  status := .halted
  D := Stack.zeroed
  R := Stack.zeroed
  ram := []
  rom := []
  devices := Vector.replicate 16 none
  W := .w3
  started := false
  skip := { flag := false, exec := false }
  diagPort := true
  events := []
  panicCause := none
  deviceReplies := []
  deviceCalls := 0

end Sys2Proof.Machine
end

