-- ==== Sys2Proof/Machine/Ops.lean ====
section
/-! DEFINITION. The named operations over memory, the stacks and the state that every meaning is written with:
the address decoder (spec/20_memory.md R80 to R88), push and pop with their multi-byte forms (spec/10_state.md R38
to R45), and the entry of a runtime fault (spec/60_exceptions.md R301). There is no return from a fault (R305). -/

namespace Sys2Proof.Machine

/-- What a meaning answers. -/
abbrev Result := Host.Outcome State Fault Refusal

/-! ### Memory -/

/-- `M = 2^(8*W)`, the size in bytes of ROM and of RAM (R80). -/
def addressSpace (W : Width) : Nat := 2 ^ (8 * W.bytes)

/-- The byte at an address; an address that is not listed reads 0 (R82, R83). -/
def Memory.read : Memory → Nat → Byte
  | [], _ => 0
  | c :: m, a => if c.1 = a then c.2 else Memory.read m a

/-- Store a byte, keeping the canonical form: an entry whose byte becomes 0 is removed. -/
def Memory.write (a : Nat) (b : Byte) : Memory → Memory
  | [] => if b = 0 then [] else [(a, b)]
  | c :: m =>
    if a < c.1 then if b = 0 then c :: m else (a, b) :: c :: m
    else if a = c.1 then if b = 0 then m else (a, b) :: m
    else c :: Memory.write a b m

/-- The canonical form: strictly rising addresses, and no listed byte is 0. -/
def Memory.wf : Memory → Bool
  | [] => true
  | c :: m => c.2 != 0 && m.all (fun d => decide (c.1 < d.1)) && Memory.wf m

/-- The `n` bytes from an address on, in ascending address order (R88). -/
def Memory.bytes (m : Memory) : Nat → Nat → List Byte
  | _, 0 => []
  | a, n + 1 => m.read a :: Memory.bytes m (a + 1) n

/-- The memory that holds `bs` from address `a` on and 0 everywhere else (R82). -/
def Memory.ofBytes (a : Nat) : List Byte → Memory
  | [] => []
  | b :: bs => if b = 0 then Memory.ofBytes (a + 1) bs else (a, b) :: Memory.ofBytes (a + 1) bs

/-- Bytes laid out from an address on, in ascending order (R88). -/
def cellsFrom (a : Nat) : List Byte → List Host.Cell
  | [] => []
  | b :: bs => (a, b) :: cellsFrom (a + 1) bs

/-- `RomRead(a)`: the ROM byte, or `none` where `a >= M` (R85). -/
def romRead (a : Nat) (s : State) : Option Byte :=
  if a < addressSpace s.W then some (s.rom.read a) else none

/-- `RamWriteByte(a, b)`: the byte is stored and the write is an event (R86). -/
def ramWriteByte (a : Nat) (b : Byte) (s : State) : State :=
  { s with ram := s.ram.write a b, events := s.events ++ [.ramWrite a b] }

/-- RAM byte writes one after the other, in the order given (R88, R95). -/
def ramWriteCells : List Host.Cell → State → State
  | [], s => s
  | c :: cs, s => ramWriteCells cs (ramWriteByte c.1 c.2 s)

/-- `MemRead(a, n)`: the big-endian value, or `none` where the access leaves RAM (R84, R87). -/
def memRead (a n : Nat) (s : State) : Option Nat :=
  if a + n ≤ addressSpace s.W then some (bigEndian (s.ram.bytes a n)) else none

/-- `MemWrite(a, n, v)`: the `n` big-endian bytes of `v` are written in ascending address order, or `none` where
the access leaves RAM (R84, R87, R88). -/
def memWrite (a n v : Nat) (s : State) : Option State :=
  if a + n ≤ addressSpace s.W then some (ramWriteCells (cellsFrom a (bytesOf n v)) s) else none

/-! ### The stacks -/

/-- The byte of a slot. -/
def Stack.slot (S : Stack) (i : BitVec 8) : Byte := S.buf[i.toNat]'i.isLt

/-- The stack with one slot changed. -/
def Stack.setSlot (S : Stack) (i : BitVec 8) (b : Byte) : Stack := { S with buf := S.buf.set i.toNat b i.isLt }

/-- `push(S, b)` (R38): overflow wraps and is no fault (R41). -/
def Stack.push (b : Byte) (S : Stack) : Stack := { S.setSlot S.p b with p := S.p + 1 }

/-- `pop(S)` (R39): the byte, and the stack with that slot zeroed. Underflow wraps and is no fault (R40). -/
def Stack.pop (S : Stack) : Byte × Stack := (S.slot (S.p - 1), { S.setSlot (S.p - 1) 0 with p := S.p - 1 })

/-- Push bytes one after the other, the first deepest. -/
def Stack.pushBytes : List Byte → Stack → Stack
  | [], S => S
  | b :: bs, S => Stack.pushBytes bs (S.push b)

/-- `push_n(S, n, v)`: the `n` low bytes of `v`, the most significant first (R42). -/
def Stack.pushN (n v : Nat) (S : Stack) : Stack := S.pushBytes (bytesOf n v)

/-- Pop `n` bytes; the list has the top byte first. -/
def Stack.popBytes : Nat → Stack → List Byte × Stack
  | 0, S => ([], S)
  | n + 1, S => (S.pop.1 :: (S.pop.2.popBytes n).1, (S.pop.2.popBytes n).2)

/-- `pop_n(S, n)`: the top byte is the least significant (R43). -/
def Stack.popN (n : Nat) (S : Stack) : Nat × Stack := (bigEndian (S.popBytes n).1.reverse, (S.popBytes n).2)

/-! ### The state -/

/-- The state with another data stack. -/
def State.setD (S : Stack) (s : State) : State := { s with D := S }

/-- The state with another return stack. -/
def State.setR (S : Stack) (s : State) : State := { s with R := S }

/-- `pc <- target` (R34). -/
def State.setPc (target : BitVec 33) (s : State) : State := { s with pc := target }

/-- `status <- Halted` (R153). -/
def State.setHalted (s : State) : State := { s with status := .halted }

/-- The skip-flag latch is written (R48, R154). -/
def State.setSkip (l : SkipLatch) (s : State) : State := { s with skip := l }

/-- An event is recorded (R13). -/
def State.emit (e : Event) (s : State) : State := { s with events := s.events ++ [e] }

/-- `raise Panic(cause)`, the entry of a runtime fault: `status <- Panic`, and nothing else of the machine changes
(R12, R301). The cause goes to the model's fault record (R302). -/
def State.raise (cause : PanicCause) (s : State) : State := { s with status := .panic, panicCause := some cause }

end Sys2Proof.Machine
end

