-- ==== Sys2Proof/Machine/Flags.lean ====
section
/-! DEFINITION. The block has no flags register (spec/10_state.md R47). Its only conditions are the condition byte
of a skip-flagged instruction (spec/40_cycle.md R156) and the result byte of `compare` (spec/41_alu.md R184). -/

namespace Sys2Proof.Machine

/-- The predicate on the condition byte: nonzero executes, zero suppresses (R156). -/
def conditionHolds (cond : Byte) : Bool := cond != 0

/-- The result byte of `compare`, on unsigned values (R184). -/
def compareByte (a b : Nat) : Byte :=
  if b < a then 0x01 else if a < b then 0xFF else 0x00

end Sys2Proof.Machine
end

