-- ==== Sys2Proof/Machine/Operands.lean ====
section
/-! DEFINITION. The operand forms, shared by all meanings: the condition byte of a skip-flagged instruction
(spec/40_cycle.md R155, R156), and the operands and results on the data stack (spec/30_encoding.md R125, R126). -/

namespace Sys2Proof.Machine

/-- Decode latches the skip bit; a skip-flagged instruction pops its condition byte, whatever its value, and
latches whether the instruction performs its normal effect (R154, R155, R156). -/
def latchCondition (skip : Bool) (s : State) : State :=
  if skip then (s.setD s.D.pop.2).setSkip { flag := true, exec := conditionHolds s.D.pop.1 }
  else s.setSkip { flag := false, exec := true }

/-- An instruction with its skip bit: its normal effect where the latch says so, else what is left of it when it
is suppressed (R156, R158). -/
def predicated (skip : Bool) (effect suppressed : State → Result) (s : State) : Result :=
  if (latchCondition skip s).skip.exec then effect (latchCondition skip s) else suppressed (latchCondition skip s)

/-- A suppressed instruction does nothing more, a literal apart (R156). -/
def suppressedEffect (s : State) : Result := .next s

/-- Pop `b` and then `a`, `w` bytes each, and give the state on with `a` and `b` (R126). -/
def withTwoOperands (w : Nat) (f : Nat → Nat → State → State) (s : State) : State :=
  f ((s.D.popN w).2.popN w).1 (s.D.popN w).1 (s.setD ((s.D.popN w).2.popN w).2)

/-- Pop one value of `w` bytes and give the state on with it. -/
def withOperand (w : Nat) (f : Nat → State → State) (s : State) : State :=
  f (s.D.popN w).1 (s.setD (s.D.popN w).2)

/-- Push a value of `w` bytes on the data stack. -/
def pushResult (w v : Nat) (s : State) : State := s.setD (s.D.pushN w v)

end Sys2Proof.Machine
end

