-- ==== Sys2Proof/Machine/Alu.lean ====
section
/-! DEFINITION. Arithmetic and logic: add, and, xor, shift, cmp (spec/41_alu.md R179 to R184). -/

namespace Sys2Proof.Machine

/-- The effect of an instruction that pops `b` and `a` and pushes `f a b`, all of `w` bytes. -/
def binaryEffect (w : Width) (f : Nat → Nat → Nat) (s : State) : Result :=
  .next (withTwoOperands w.bytes (fun a b => pushResult w.bytes (f a b)) s)

/-- `shift`'s value, on unbounded unsigned integers: right by the low nibble of the control byte, then left by its
high nibble (R183). -/
def shiftValue (ctl : Byte) (n : Nat) : Nat := (n >>> (ctl.toNat % 16)) <<< (ctl.toNat / 16)

/-- The effect of `shift`: the control byte is one byte whatever `w` is, and `push_n` truncates (R183). -/
def shiftEffect (w : Width) (s : State) : Result :=
  .next (withOperand w.bytes (fun n => pushResult w.bytes (shiftValue s.D.pop.1 n)) (s.setD s.D.pop.2))

/-- The effect of `compare`: one result byte whatever `w` is (R184). -/
def compareEffect (w : Width) (s : State) : Result :=
  .next (withTwoOperands w.bytes (fun a b t => t.setD (t.D.push (compareByte a b))) s)

/-- `add` (R180). -/
def execAdd (skip : Bool) (w : Width) (s : State) : Result :=
  predicated skip (binaryEffect w fun a b => (a + b) % 2 ^ (8 * w.bytes)) suppressedEffect s

/-- `and` (R181). -/
def execAnd (skip : Bool) (w : Width) (s : State) : Result :=
  predicated skip (binaryEffect w fun a b => a &&& b) suppressedEffect s

/-- `xor` (R182). -/
def execXor (skip : Bool) (w : Width) (s : State) : Result :=
  predicated skip (binaryEffect w fun a b => a ^^^ b) suppressedEffect s

/-- `shift` (R183). -/
def execShift (skip : Bool) (w : Width) (s : State) : Result :=
  predicated skip (shiftEffect w) suppressedEffect s

/-- `compare` (R184). -/
def execCmp (skip : Bool) (w : Width) (s : State) : Result :=
  predicated skip (compareEffect w) suppressedEffect s

end Sys2Proof.Machine
end

