-- ==== Sys2Proof/Machine/Control.lean ====
section
/-! DEFINITION. Control transfer and immediates: jump, lit (spec/44_control.md R239 to R241, spec/40_cycle.md R157) and
halt (spec/40_cycle.md R153). While an instruction executes, `pc` is the address after its opcode byte (R152). -/

namespace Sys2Proof.Machine

/-- Pop the target and write it, zero-extended, to `pc`; a target above ROM faults at the next fetch (R240). -/
def jumpEffect (w : Width) (s : State) : Result :=
  .next (withOperand w.bytes (fun target t => t.setPc (BitVec.ofNat 33 target)) s)

/-- The immediate fetch of a literal, executed or suppressed: its range check comes first, and the state after the
`w` bytes is given on (R157, R241). -/
def immediateFetch (w : Width) (f : State → State) (s : State) : Result :=
  if s.pc.toNat + w.bytes ≤ addressSpace s.W then .next (f (s.setPc (s.pc + BitVec.ofNat 33 w.bytes)))
  else .next (s.raise .romOutOfRange)

/-- `jump` (R240). -/
def execJump (skip : Bool) (w : Width) (s : State) : Result := predicated skip (jumpEffect w) suppressedEffect s

/-- `literal` (R241): the immediate bytes, which decode has assembled, are pushed; suppressed, they are only passed
over (R157). -/
def execLit (skip : Bool) (w : Width) (imm : BitVec 32) (s : State) : Result :=
  predicated skip (immediateFetch w (pushResult w.bytes imm.toNat)) (immediateFetch w id) s

/-- `halt` (R153): bits 6..0 are ignored, no condition byte is popped and the latch is not written (R48, R122). -/
def execHalt (_ignored : BitVec 7) (s : State) : Result := .next s.setHalted

end Sys2Proof.Machine
end

