-- ==== Sys2Proof/Machine/Device.lean ====
section
/-! DEFINITION. The device registry, one device call, and device-interrupt (spec/45_device.md R260 to R269). What a
device does is an input: the next of `deviceReplies`, and past their end the free value (log entry 1). -/

namespace Sys2Proof.Machine

/-- `find(sel)`: the valid entry that holds the selector, the whole byte matching, by a linear scan (R262, R263). -/
def findDevice (T : DeviceTable) (sel : Byte) : Option (Fin 16 × DeviceEntry) :=
  (List.finRange 16).findSome? fun i =>
    match T[i] with
    | some e => if e.sel = sel then some (i, e) else none
    | none => none

/-- What the device bound as `dev` does when it is called now with `sel` (R268). -/
def nextReply (dev : Nat) (sel : Byte) (s : State) : DeviceReply :=
  match s.deviceReplies with
  | r :: _ => r
  | [] => Config.deviceReply dev s.deviceCalls sel s.ram

/-- The call has been made: its reply is used up. -/
def State.takeReply (s : State) : State :=
  { s with deviceReplies := s.deviceReplies.tail, deviceCalls := s.deviceCalls + 1 }

/-- A device that returned: its RAM writes in order, the call's event with the result, and the result pushed
(R264, R266). -/
def deviceReturns (i : Fin 16) (sel : Byte) (writes : List Host.Cell) (r : Byte) (s : State) : State :=
  let t := (ramWriteCells writes s.takeReply).emit (.deviceCall i sel r)
  t.setD (t.D.push r)

/-- A device's RAM writes are RAM bytes: their addresses are below `M` (R86, R266). -/
def writesInRam (W : Width) (writes : List Host.Cell) : Bool := writes.all fun c => decide (c.1 < addressSpace W)

/-- Dispatch selectors one after the other; the first unmatched one panics and the rest are not dispatched (R264). -/
def callDevices : List Byte → State → Result
  | [], s => .next s
  | sel :: rest, s =>
    match findDevice s.devices sel with
    | none => .next (s.raise .unregisteredDevice)
    | some (i, e) =>
      match nextReply e.dev sel s with
      | .hangs => .fault .deviceNeverReturns
      | .breaksContract => .refused .deviceOutsideContract
      | .returns writes r =>
        if writesInRam s.W writes then callDevices rest (deviceReturns i sel writes r s)
        else .refused .deviceOutsideContract

/-- Pop all `w` selectors, the top byte first, then dispatch them in that order (R264). -/
def devEffect (w : Width) (s : State) : Result :=
  callDevices (s.D.popBytes w.bytes).1 (s.setD (s.D.popBytes w.bytes).2)

/-- `device-interrupt` (R264). -/
def execDev (skip : Bool) (w : Width) (s : State) : Result := predicated skip (devEffect w) suppressedEffect s

end Sys2Proof.Machine
end

