-- ==== Sys2Proof/Machine/Diagnostic.lean ====
section
/-! DEFINITION. Diagnostic (spec/46_diagnostic.md R290, R291): an architectural no-op with one event for the host. -/

namespace Sys2Proof.Machine

/-- The value a diagnostic item reports: the data-stack pointer, the return-stack pointer, `pc` (the address after
the opcode byte) or `W` (R290). -/
def diagValue (item : DiagItem) (s : State) : BitVec 33 :=
  match item with
  | .dataPointer => s.D.p.setWidth 33
  | .returnPointer => s.R.p.setWidth 33
  | .programCounter => s.pc
  | .wordWidth => BitVec.ofNat 33 s.W.bytes

/-- The effect of `diagnostic`: the event, where the port exists (R290). -/
def diagEffect (item : DiagItem) (s : State) : Result :=
  .next (if s.diagPort then s.emit (.diag item (diagValue item s)) else s)

/-- `diagnostic` (R290). -/
def execDiag (skip : Bool) (item : DiagItem) (s : State) : Result :=
  predicated skip (diagEffect item) suppressedEffect s

end Sys2Proof.Machine
end

