-- ==== Sys2Proof/Machine/LoadStore.lean ====
section
/-! DEFINITION. Loads and stores (spec/43_loadstore.md R219 to R222). The address is always `W` bytes wide, absolute,
with no alignment; an access that runs past the top of RAM panics after the pops and before any byte moves. -/

namespace Sys2Proof.Machine

/-- `MemWrite`, or its panic (R84, R87). -/
def storeAt (addr n v : Nat) (s : State) : State :=
  match memWrite addr n v s with
  | some t => t
  | none => s.raise .ramOutOfRange

/-- `MemRead` and the push of its value, or its panic (R84, R87). -/
def loadFrom (addr n : Nat) (s : State) : State :=
  match memRead addr n s with
  | some v => pushResult n v s
  | none => s.raise .ramOutOfRange

/-- Pop the address and the value, then write (R220). -/
def storeEffect (w : Width) (s : State) : Result :=
  .next (withOperand s.W.bytes (fun addr => withOperand w.bytes (storeAt addr w.bytes)) s)

/-- Pop the address, read, push the value (R221). -/
def loadEffect (w : Width) (s : State) : Result :=
  .next (withOperand s.W.bytes (fun addr => loadFrom addr w.bytes) s)

/-- `store` (R220). -/
def execStore (skip : Bool) (w : Width) (s : State) : Result := predicated skip (storeEffect w) suppressedEffect s

/-- `load` (R221). -/
def execLoad (skip : Bool) (w : Width) (s : State) : Result := predicated skip (loadEffect w) suppressedEffect s

end Sys2Proof.Machine
end

