-- ==== Sys2Proof/Machine/StackManipulation.lean ====
section
/-! DEFINITION. Stack manipulation: swap, dup, drop, tor, fromr (spec/42_stack.md R199 to R204). None can fault. -/

namespace Sys2Proof.Machine

/-- Pop `b` and `a`, push `b` and then `a` (R200). -/
def swapEffect (w : Width) (s : State) : Result :=
  .next (withTwoOperands w.bytes (fun a b t => pushResult w.bytes a (pushResult w.bytes b t)) s)

/-- Pop `n`, push it twice (R201). -/
def dupEffect (w : Width) (s : State) : Result :=
  .next (withOperand w.bytes (fun n t => pushResult w.bytes n (pushResult w.bytes n t)) s)

/-- Pop and discard; the slots are zeroed by the pop (R202). -/
def dropEffect (w : Width) (s : State) : Result :=
  .next (withOperand w.bytes (fun _ t => t) s)

/-- Move a value whole from the data stack to the return stack (R203). -/
def torEffect (w : Width) (s : State) : Result :=
  .next (withOperand w.bytes (fun v t => t.setR (t.R.pushN w.bytes v)) s)

/-- Move a value whole from the return stack to the data stack (R204). -/
def fromrEffect (w : Width) (s : State) : Result :=
  .next (pushResult w.bytes (s.R.popN w.bytes).1 (s.setR (s.R.popN w.bytes).2))

/-- `swap` (R200). -/
def execSwap (skip : Bool) (w : Width) (s : State) : Result := predicated skip (swapEffect w) suppressedEffect s

/-- `duplicate` (R201). -/
def execDup (skip : Bool) (w : Width) (s : State) : Result := predicated skip (dupEffect w) suppressedEffect s

/-- `drop` (R202). -/
def execDrop (skip : Bool) (w : Width) (s : State) : Result := predicated skip (dropEffect w) suppressedEffect s

/-- `to-return` (R203). -/
def execTor (skip : Bool) (w : Width) (s : State) : Result := predicated skip (torEffect w) suppressedEffect s

/-- `from-return` (R204). -/
def execFromr (skip : Bool) (w : Width) (s : State) : Result := predicated skip (fromrEffect w) suppressedEffect s

end Sys2Proof.Machine
end

