-- ==== Sys2Proof/Machine/Dispatch.lean ====
section
/-! DEFINITION. The dispatch of an instruction to its meaning (spec/40_cycle.md R158). -/

namespace Sys2Proof.Machine

def exec (i : Instr) (s : State) : Host.Outcome State Fault Refusal :=
  match i with
  | .add skip w => Sys2Proof.Machine.execAdd skip w s
  | .and skip w => Sys2Proof.Machine.execAnd skip w s
  | .xor skip w => Sys2Proof.Machine.execXor skip w s
  | .shift skip w => Sys2Proof.Machine.execShift skip w s
  | .swap skip w => Sys2Proof.Machine.execSwap skip w s
  | .cmp skip w => Sys2Proof.Machine.execCmp skip w s
  | .store skip w => Sys2Proof.Machine.execStore skip w s
  | .load skip w => Sys2Proof.Machine.execLoad skip w s
  | .dup skip w => Sys2Proof.Machine.execDup skip w s
  | .drop skip w => Sys2Proof.Machine.execDrop skip w s
  | .tor skip w => Sys2Proof.Machine.execTor skip w s
  | .fromr skip w => Sys2Proof.Machine.execFromr skip w s
  | .jump skip w => Sys2Proof.Machine.execJump skip w s
  | .lit skip w imm => Sys2Proof.Machine.execLit skip w imm s
  | .dev skip w => Sys2Proof.Machine.execDev skip w s
  | .diag skip item => Sys2Proof.Machine.execDiag skip item s
  | .halt ignored => Sys2Proof.Machine.execHalt ignored s

end Sys2Proof.Machine
end

