-- ==== Sys2Proof/Machine/Fetch.lean ====
section
/-! DEFINITION. Fetch (spec/40_cycle.md R151, R152) and the placing of a program's bytes in ROM (spec/20_memory.md
R82). -/

namespace Sys2Proof.Machine

/-- The instruction at `pc`, with a literal's immediate bytes; `none` where the fetch of the instruction byte leaves
ROM (R151). Immediate bytes at or above `M` do not exist: they are taken as listed (0) here, and the literal's own
range check panics before any of them is used (R241; log entry 11). -/
def fetchInstr (s : State) : Option Instr :=
  match romRead s.pc.toNat s with
  | none => none
  | some ib => some (decodeByte ib (bigEndian (s.rom.bytes (s.pc.toNat + 1) (immLength ib))))

/-- The program-counter advance after a successful fetch (R152). -/
def State.advance (s : State) : State := s.setPc (s.pc + 1)

/-- Store bytes in a memory from an address on. -/
def Memory.writeCells : List Host.Cell → Memory → Memory
  | [], m => m
  | c :: cs, m => Memory.writeCells cs (m.write c.1 c.2)

/-- The bytes of a table word placed at `pc` in ROM, on a block that has been started: what a load of that image
and the host's `start` do (R82, R335; log entry 9). -/
def placeWord (s : State) (nbits w : Nat) : State :=
  { s with
    rom := Memory.writeCells (cellsFrom s.pc.toNat (tableBytes nbits w)) s.rom
    status := .running
    started := true }

end Sys2Proof.Machine
end

