-- ==== Sys2Proof/Machine/Step.lean ====
section
/-! DEFINITION. One tick of the block (spec/40_cycle.md R150 to R160). -/

namespace Sys2Proof.Machine

/-- The tick (R159): nothing unless Running (R150); a fetch outside ROM panics with `pc` unchanged (R151); else `pc`
advances and the instruction executes. -/
def step (s : State) : Host.Outcome State Fault Refusal :=
  match s.status with
  | .halted => .next s
  | .panic => .next s
  | .running =>
    match fetchInstr s with
    | none => .next (s.raise .romOutOfRange)
    | some i => exec i s.advance

/-- The state in which the next tick fetches the instruction of a word of the opcode table: the word's bytes stand
in ROM at `pc` and the block has been started (log entry 9). -/
def State.withFetchWord (s : State) (nbits w : Nat) : State := placeWord s nbits w

end Sys2Proof.Machine
end

