-- ==== Sys2Proof/Machine/HostOps.lean ====
section
/-! DEFINITION. What the host does to the block (spec/10_state.md R55, spec/70_reset_and_hazards.md R330 to R340,
spec/45_device.md R261): init, register, start, tick and the status port. Inspection is reading the state, which is
plain data and which reading does not change (spec/60_exceptions.md R303). -/

namespace Sys2Proof.Machine

/-- Why an initialisation leaves no block: the image cannot be read or is larger than `M` (R331), or `W` is not 1,
2, 3 or 4 (R49, D10). -/
inductive LoadError where
  | imageUnreadable
  | imageTooLarge
  | illegalWordWidth
deriving DecidableEq, Repr

/-- What the host gives at a launch besides the registrations: `W`, the image (`none`: it cannot be read), whether
the diagnostic port exists, and what the devices will answer (R6). -/
structure Launch where
  W : Nat
  image : Option (List Byte)
  diagPort : Bool
  deviceReplies : List DeviceReply
deriving DecidableEq, Repr

/-- The word width of a legal number (R49). -/
def legalWidth : Nat → Option Width
  | 1 => some .w1
  | 2 => some .w2
  | 3 => some .w3
  | 4 => some .w4
  | _ => none

/-- What `init` answers: a block, or a load failure with no block at all (R331). -/
inductive InitReply where
  | ready (s : State)
  | loadFailure (why : LoadError)
deriving DecidableEq, Repr

/-- `init(W, image)` (R330, R331): every state element at its value of R56. -/
def init (l : Launch) : InitReply :=
  match legalWidth l.W, l.image with
  | none, _ => .loadFailure .illegalWordWidth
  | some _, none => .loadFailure .imageUnreadable
  | some W, some image =>
    if image.length ≤ addressSpace W then
      .ready { State.reset with
        W := W
        rom := Memory.ofBytes 0 image
        diagPort := l.diagPort
        deviceReplies := l.deviceReplies }
    else .loadFailure .imageTooLarge

/-- What a host operation on a block answers: done, with the new state; a reported failure, which changes nothing
(R261, R306); or no meaning, because the spec puts the operation outside itself (R261, R335). -/
inductive HostReply where
  | done (s : State)
  | failure
  | outsideSpec
deriving DecidableEq, Repr

/-- The invalid entry a registration takes: the first one from `pick` on, going round. R261 leaves the choice open,
and every invalid entry is the one taken for some `pick` (log entry 10). -/
def freeEntry (T : DeviceTable) (pick : Fin 16) : Option (Fin 16) :=
  ((List.finRange 16).map fun i => pick + i).find? fun i => T[i].isNone

/-- `register(sel, dev)` (R261): refused once started, a failure when the selector is taken or the table full. -/
def register (pick : Fin 16) (sel : Byte) (dev : Nat) (s : State) : HostReply :=
  if s.started then .outsideSpec
  else
    match findDevice s.devices sel with
    | some _ => .failure
    | none =>
      match freeEntry s.devices pick with
      | none => .failure
      | some i => .done { s with devices := s.devices.set i (some { sel := sel, dev := dev }) }

/-- `start` (R335): accepted once, from the post-initialisation `Halted`. -/
def start (s : State) : HostReply :=
  if s.status = .halted ∧ s.started = false then .done { s with status := .running, started := true }
  else .outsideSpec

/-- The status port: the 2-bit code of the status (R31). -/
def Status.code : Status → BitVec 2
  | .running => 0
  | .halted => 1
  | .panic => 2

/-- `tick` as the host calls it: the step, and the status after it as the reply (R55, R150). The reply is `none`
where the tick never ends or has no meaning. -/
def tickReply (s : State) : Option Status :=
  match step s with
  | .next t => some t.status
  | .fault _ => none
  | .refused _ => none

end Sys2Proof.Machine
end

