-- ==== Sys2Proof/Safety.lean ====
section
/-! DEFINITION. The terms in which claims about the block are stated: what lies on a stack, a stack and a memory
after an instruction, read slot by slot and byte by byte from the rules and not from the operations' own loops; the
skip bit of an instruction; when a fault is due; and the invariant of the block. -/

namespace Sys2Proof.Machine

/-! ### Stacks -/

/-- The byte at depth `d` of a stack: depth 0 is the top, the slot below the pointer (R36, R39). -/
def Stack.peek (S : Stack) (d : Nat) : Byte := S.slot (S.p - BitVec.ofNat 8 (d + 1))

/-- The `n`-byte value whose top, least significant byte is at depth `d` (R43, R45). -/
def Stack.value (S : Stack) (d : Nat) : Nat → Nat
  | 0 => 0
  | n + 1 => (S.peek d).toNat + 256 * S.value (d + 1) n

/-- The `n` bytes from the top down, the top first. -/
def Stack.topBytes (S : Stack) (n : Nat) : List Byte := (List.range n).map S.peek

/-- `T` is the stack `S` after `popped` bytes have been popped and then the `pushed`-byte value `v` has been pushed
(R38, R39, R42, R45): the pointer moves by both, modulo 256; from the new bottom up, the slots of the value hold its
bytes, the most significant deepest; the other slots that were popped hold 0; every further slot is unchanged. -/
def Stack.After (S : Stack) (popped pushed v : Nat) (T : Stack) : Prop :=
  T.p = S.p - BitVec.ofNat 8 popped + BitVec.ofNat 8 pushed ∧
  ∀ i : BitVec 8, T.slot i =
    if (i - (S.p - BitVec.ofNat 8 popped)).toNat < pushed then
      byteOf (pushed - 1 - (i - (S.p - BitVec.ofNat 8 popped)).toNat) v
    else if (i - (S.p - BitVec.ofNat 8 popped)).toNat < popped then 0
    else S.slot i

/-! ### Memory -/

/-- The big-endian value of `n` bytes of memory: the byte at the lowest address is the most significant (R87). -/
def Memory.valueAt (m : Memory) (a : Nat) : Nat → Nat
  | 0 => 0
  | n + 1 => (m.read a).toNat * 256 ^ n + m.valueAt (a + 1) n

/-- `m'` is the memory `m` after the `n` big-endian bytes of `v` have been stored at `a`, read byte by byte: every
address outside `a .. a+n-1` reads as before (R87). -/
def Memory.Stored (m : Memory) (a n v : Nat) (m' : Memory) : Prop :=
  ∀ x, m'.read x = if a ≤ x ∧ x < a + n then byteOf (a + n - 1 - x) v else m.read x

/-- The write events of a store, in ascending address order (R88). -/
def storeEvents (a n v : Nat) : List Event :=
  (List.range n).map fun j => .ramWrite (a + j) (byteOf (n - 1 - j) v)

/-- The memory after the RAM writes among a list of events, in their order (R86). -/
def replay : List Event → Memory → Memory
  | [], m => m
  | .ramWrite a b :: es, m => replay es (m.write a b)
  | .deviceCall _ _ _ :: es, m => replay es m
  | .diag _ _ :: es, m => replay es m

/-! ### Instructions -/

/-- The instruction byte of skip bit, width and opcode number, written as a sum (R132). -/
def opcodeByte (skip : Bool) (w : Width) (op : Nat) : Byte :=
  BitVec.ofNat 8 (0x80 + (if skip then 0x40 else 0) + 0x10 * (w.bytes - 1) + op)

/-- The instruction is a halt, which has no skip bit (R122). -/
def isHalt : Instr → Bool
  | .halt _ => true
  | _ => false

/-- The instruction is a literal. -/
def isLiteral : Instr → Bool
  | .lit _ _ _ => true
  | _ => false

/-- The same instruction with another skip bit; a halt has none. -/
def withSkip (b : Bool) : Instr → Instr
  | .add _ w => .add b w
  | .and _ w => .and b w
  | .xor _ w => .xor b w
  | .shift _ w => .shift b w
  | .swap _ w => .swap b w
  | .cmp _ w => .cmp b w
  | .store _ w => .store b w
  | .load _ w => .load b w
  | .dup _ w => .dup b w
  | .drop _ w => .drop b w
  | .tor _ w => .tor b w
  | .fromr _ w => .fromr b w
  | .jump _ w => .jump b w
  | .lit _ w imm => .lit b w imm
  | .dev _ w => .dev b w
  | .diag _ item => .diag b item
  | .halt x => .halt x

/-- Change the next state of an answer, where there is one. -/
def mapNext (f : State → State) : Result → Result
  | .next t => .next (f t)
  | .fault r => .fault r
  | .refused r => .refused r

/-! ### Faults and devices -/

/-- The instruction performs its normal effect: it has no skip bit, or its condition byte is nonzero (R156). -/
def Performs (skip : Bool) (s : State) : Prop := skip = true → s.D.peek 0 ≠ 0

/-- How deep an instruction's own operands begin: below the condition byte where there is one (R155). -/
def operandDepth (skip : Bool) : Nat := if skip then 1 else 0

/-- The condition under which executing an instruction raises a fault, for each fault (R300); `pc` is the address
after the opcode byte. The fetch's own fault comes before any instruction. -/
def PanicDue : Instr → State → PanicCause → Prop
  | .lit _ w _, s, .romOutOfRange => addressSpace s.W < s.pc.toNat + w.bytes
  | .store skip w, s, .ramOutOfRange =>
    Performs skip s ∧ addressSpace s.W < s.D.value (operandDepth skip) s.W.bytes + w.bytes
  | .load skip w, s, .ramOutOfRange =>
    Performs skip s ∧ addressSpace s.W < s.D.value (operandDepth skip) s.W.bytes + w.bytes
  | .dev skip w, s, .unregisteredDevice =>
    Performs skip s ∧ ∃ j, j < w.bytes ∧ findDevice s.devices (s.D.peek (operandDepth skip + j)) = none
  | _, _, _ => False

/-- The events of one device call that returned: its RAM writes in order, then the call itself (R266). -/
def callEvents (T : DeviceTable) (sel : Byte) (reply : List Host.Cell × Byte) : List Event :=
  match findDevice T sel with
  | some found => reply.1.map (fun c => .ramWrite c.1 c.2) ++ [.deviceCall found.1 sel reply.2]
  | none => []

/-- The launch input for device calls that return. -/
def returning (replies : List (List Host.Cell × Byte)) : List DeviceReply :=
  replies.map fun r => .returns r.1 r.2

/-- The answer to the next call of a device-interrupt that executes in `s` with its selectors from depth `d` on, after
the calls `before` have returned: the launch input's answer of that call, or past its end the free value, whose device
sees the RAM writes of the calls before it (R100, R264, R268; log entry 1). `none`: the selector is unmatched and
there is no call. -/
def nextAnswer (s : State) (d : Nat) (before : List (List Host.Cell × Byte)) : Option DeviceReply :=
  (findDevice s.devices (s.D.peek (d + before.length))).map fun found =>
    s.deviceReplies.getD before.length
      (Config.deviceReply found.2.dev (s.deviceCalls + before.length) (s.D.peek (d + before.length))
        (Memory.writeCells (before.flatMap (·.1)) s.ram))

/-- The answer returns, and writes nothing but RAM (R266; log entry 3). -/
def WithinContract (W : Width) (answer : DeviceReply) : Prop :=
  ∃ writes r, answer = .returns writes r ∧ ∀ c ∈ writes, c.1 < addressSpace W

/-- The first calls of that device-interrupt are answered, within the contract, by `before`. -/
def AnsweredBy (s : State) (d : Nat) (before : List (List Host.Cell × Byte)) : Prop :=
  ∀ (earlier : List (List Host.Cell × Byte)) (reply : List Host.Cell × Byte) (later : List (List Host.Cell × Byte)),
    before = earlier ++ reply :: later →
      nextAnswer s d earlier = some (.returns reply.1 reply.2) ∧ ∀ c ∈ reply.1, c.1 < addressSpace s.W

/-! ### The invariant -/

/-- What holds of the block after initialisation and after every tick and host operation. -/
structure State.Inv (s : State) : Prop where
  /-- RAM and ROM are in canonical form and list only addresses below `M` (R52, R80) -/
  ramForm : s.ram.wf = true
  romForm : s.rom.wf = true
  ramRange : ∀ c ∈ s.ram, c.1 < addressSpace s.W
  romRange : ∀ c ∈ s.rom, c.1 < addressSpace s.W
  /-- `pc <= max(M, 2^32 - 1)` (R35) -/
  pcBound : s.pc.toNat ≤ max (addressSpace s.W) (2 ^ 32 - 1)
  /-- no two valid entries of the device table hold the same selector (R51) -/
  selectorsUnique : ∀ (i j : Fin 16) (e f : DeviceEntry),
    s.devices[i] = some e → s.devices[j] = some f → e.sel = f.sel → i = j
  /-- a fault is on record exactly in `panic` (R12, R301) -/
  faultRecord : s.status = .panic ↔ s.panicCause.isSome = true
  /-- only a started block is ever Running or in Panic (R50, R335) -/
  startedFirst : s.status ≠ .halted → s.started = true

end Sys2Proof.Machine
end

