-- ==== Sys2Proof/Certificates/Slice0/Obligations.lean ====
section
/-! DEFINITION. The statements about the block, from the numbered rules of spec/. -/

open Sys2Proof Sys2Proof.Machine

/-! ### Encoding -/

/-- R120, R123, R127, R132: encoding loses nothing, for every well-formed instruction with every operand at every
value, whatever bytes follow. -/
def Obligations.DecodeEncodeRoundTrip : Prop :=
  ∀ (i : Instr) (rest : List Byte), i.wf = true → decode (encode i ++ rest) = .instr i rest

/-- R123, R124: the other direction. What decoding reads is well-formed and is the encoding of the bytes it used. -/
def Obligations.DecodedBytesAreTheEncoding : Prop :=
  ∀ (bs : List Byte) (i : Instr) (rest : List Byte),
    decode bs = .instr i rest → i.wf = true ∧ bs = encode i ++ rest

/-- R123, R130 (an inference the spec marks as derived): every byte value begins an instruction; all that can be
missing is the `w` immediate bytes of a literal. -/
def Obligations.EveryByteValueDecodes : Prop :=
  ∀ (ib : Byte) (rest : List Byte),
    (if 0x80 ≤ ib.toNat ∧ ib.toNat % 16 = 13 then ib.toNat / 16 % 4 + 1 else 0) ≤ rest.length ↔
      ∃ i rest', decode (ib :: rest) = .instr i rest'

/-- R128, R129, R132: some words written out from the encoding tables. -/
def Obligations.SampleWordsDecode : Prop :=
  decode [0x80] = .instr (.add false .w1) [] ∧ decode [0xC0] = .instr (.add true .w1) [] ∧
  decode [0x96] = .instr (.store false .w2) [] ∧ decode [0xCC] = .instr (.jump true .w1) [] ∧
  decode [0xBF] = .instr (.diag false .wordWidth) [] ∧ decode [0x40] = .instr (.halt 0x40) [] ∧
  decode [0xBA] = .instr (.tor false .w4) [] ∧ decode [0xEE] = .instr (.dev true .w3) [] ∧
  decode [0x9D, 0x09, 0x15, 0x00] = .instr (.lit false .w2 0x0915) [0x00]

/-! ### The tick -/

/-- R151, R152, R158, R159: where the ROM bytes from `pc` to the top of ROM decode, the tick advances `pc` by one and
executes the decoded instruction. -/
def Obligations.StepRunsDecodedInstruction : Prop :=
  ∀ (s : State) (i : Instr) (rest : List Byte),
    s.status = .running → s.pc.toNat < addressSpace s.W →
    decode (s.rom.bytes s.pc.toNat (min 5 (addressSpace s.W - s.pc.toNat))) = .instr i rest →
    step s = exec i { s with pc := s.pc + 1 }

/-- R157, R241, R301 (decisions D16, D17, D24): a literal whose immediate is cut off by the top of ROM panics, with
`pc` at its first immediate byte, only its condition byte popped, and nothing pushed. -/
def Obligations.LiteralPastTopOfRomPanics : Prop :=
  ∀ (s : State) (why : DecodeError) (D₁ : Stack),
    s.status = .running → s.pc.toNat < addressSpace s.W →
    decode (s.rom.bytes s.pc.toNat (min 5 (addressSpace s.W - s.pc.toNat))) = .refused why →
    s.D.After 1 0 0 D₁ →
    step s = .next
      (if (s.rom.read s.pc.toNat).toNat / 64 % 2 = 1 then
        { s with pc := s.pc + 1, D := D₁, skip := { flag := true, exec := s.D.peek 0 != 0 },
                 status := .panic, panicCause := some .romOutOfRange }
      else
        { s with pc := s.pc + 1, skip := { flag := false, exec := true },
                 status := .panic, panicCause := some .romOutOfRange })

/-- R150 (decision D8), R32: once the status has left Running, no number of ticks changes anything. -/
def Obligations.TerminalStatusKeepsState : Prop :=
  ∀ (n : Nat) (s : State), s.status ≠ .running → core.run n s = .next s

/-- R151 (decision D17), R85: a fetch outside ROM panics and leaves `pc`, the stacks and RAM as they were. -/
def Obligations.FetchOutsideRomPanics : Prop :=
  ∀ s : State, s.status = .running → addressSpace s.W ≤ s.pc.toNat →
    step s = .next { s with status := .panic, panicCause := some .romOutOfRange }

/-- R153: a byte with bit 7 clear halts; `pc` keeps the fetch's advance, nothing is popped, not even with bit 6 set.
The canonical halt byte is 0x00, and `halt` completes in every state. -/
def Obligations.HaltByteHalts : Prop :=
  (∀ s : State, s.status = .running → s.pc.toNat < addressSpace s.W → (s.rom.read s.pc.toNat).toNat < 0x80 →
    step s = .next { s with pc := s.pc + 1, status := .halted }) ∧
  (∀ (x : BitVec 7) (s : State), exec (.halt x) s = .next { s with status := .halted }) ∧
  (∀ b : Byte, b.toNat < 0x80 ↔ ∃ x, encode (.halt x) = [b]) ∧
  encode (.halt 0) = [0x00]

/-- R161: a Running block halts exactly by fetching a byte with bit 7 clear. -/
def Obligations.HaltsExactlyOnHaltByte : Prop :=
  ∀ s t : State, s.status = .running → step s = .next t →
    (t.status = .halted ↔ s.pc.toNat < addressSpace s.W ∧ (s.rom.read s.pc.toNat).toNat < 0x80)

/-- R155, R156, R163 (decisions D1 and D2): a skip-flagged instruction whose condition byte is nonzero executes as the
same instruction without the skip bit does on the stack left after the condition pop, for all sixteen opcodes. -/
def Obligations.SkipFlaggedExecutesAsUnflagged : Prop :=
  ∀ (i : Instr) (s : State) (D₁ : Stack), isHalt i = false → s.D.peek 0 ≠ 0 → s.D.After 1 0 0 D₁ →
    exec (withSkip true i) s =
      mapNext (fun t => { t with skip := { flag := true, exec := true } }) (exec (withSkip false i) { s with D := D₁ })

/-- R155, R156, R163 (decisions D1 and D2): suppressed by a zero condition byte, every instruction but a literal
consumes the condition byte and does nothing else. -/
def Obligations.SuppressedInstructionOnlyPopsCondition : Prop :=
  ∀ (i : Instr) (s : State) (D₁ : Stack), isHalt i = false → isLiteral i = false →
    s.D.peek 0 = 0 → s.D.After 1 0 0 D₁ →
    exec (withSkip true i) s = .next { s with D := D₁, skip := { flag := true, exec := false } }

/-- R157 (decision D16): a suppressed literal checks its range and passes over its immediate bytes; it pushes
nothing. -/
def Obligations.SuppressedLiteralPassesImmediate : Prop :=
  ∀ (w : Width) (imm : BitVec 32) (s : State) (D₁ : Stack), s.D.peek 0 = 0 → s.D.After 1 0 0 D₁ →
    (s.pc.toNat + w.bytes ≤ addressSpace s.W →
      exec (.lit true w imm) s = .next
        { s with pc := s.pc + BitVec.ofNat 33 w.bytes, D := D₁, skip := { flag := true, exec := false } }) ∧
    (addressSpace s.W < s.pc.toNat + w.bytes →
      exec (.lit true w imm) s = .next
        { s with D := D₁, skip := { flag := true, exec := false },
                 status := .panic, panicCause := some .romOutOfRange })

/-- R34: the only writers of `pc` are the fetch (by one, when it succeeds), a literal, executed or suppressed (by `w`
more, where its immediate lies in ROM), and a jump that performs its effect (to its target, the bytes below the
condition byte if there is one). -/
def Obligations.PcWrittenOnlyByFetchLiteralJump : Prop :=
  ∀ s t : State, step s = .next t →
    (s.status ≠ .running ∨ addressSpace s.W ≤ s.pc.toNat → t.pc = s.pc) ∧
    (s.status = .running → s.pc.toNat < addressSpace s.W →
      (∀ skip w imm, decodeByte (s.rom.read s.pc.toNat) 0 = .lit skip w imm →
        t.pc = if s.pc.toNat + 1 + w.bytes ≤ addressSpace s.W then s.pc + 1 + BitVec.ofNat 33 w.bytes else s.pc + 1) ∧
      (∀ skip w, decodeByte (s.rom.read s.pc.toNat) 0 = .jump skip w →
        (Performs skip s → t.pc.toNat = s.D.value (operandDepth skip) w.bytes) ∧
        (¬ Performs skip s → t.pc = s.pc + 1)) ∧
      ((∀ skip w imm, decodeByte (s.rom.read s.pc.toNat) 0 ≠ .lit skip w imm) →
        (∀ skip w, decodeByte (s.rom.read s.pc.toNat) 0 ≠ .jump skip w) → t.pc = s.pc + 1))

/-- R300, R301 (decisions D5, D17, D24): executing an instruction raises a fault exactly under the conditions listed,
and the record names it. -/
def Obligations.PanicExactlyWhenDue : Prop :=
  ∀ (i : Instr) (s t : State) (c : PanicCause), s.status = .running → exec i s = .next t →
    (t.status = .panic ∧ t.panicCause = some c ↔ PanicDue i s c)

/-- R130, R199, R264, R266, R268, R300 (decisions D12 and D13; log entries 1, 2 and 3): no instruction but `dev` ever
stops without a next state. `dev` answers one exactly where it is suppressed or every call it makes is answered within
the contract, the calls before an unmatched selector included. -/
def Obligations.OnlyDeviceCallsStop : Prop :=
  (∀ (i : Instr) (s : State), (∀ skip w, i ≠ .dev skip w) → ∃ t, exec i s = .next t) ∧
  ∀ (skip : Bool) (w : Width) (s : State),
    (∃ t, exec (.dev skip w) s = .next t) ↔
      (Performs skip s → ∀ before answer, before.length < w.bytes → AnsweredBy s (operandDepth skip) before →
        nextAnswer s (operandDepth skip) before = some answer → WithinContract s.W answer)

/-- R48 (decision D29): the skip-flag latch carries nothing from one tick to the next. -/
def Obligations.SkipLatchCarriesNothing : Prop :=
  ∀ (s : State) (l : SkipLatch),
    mapNext (fun t => { t with skip := l }) (step { s with skip := l }) = mapNext (fun t => { t with skip := l }) (step s)

/-- R13, R291, R302: no tick reads the events or the fault record, and the diagnostic port makes no difference but to
the events. -/
def Obligations.RecordsAndDiagnosticPortAreNotRead : Prop :=
  ∀ (s : State) (port : Bool) (es : List Event) (c : Option PanicCause),
    mapNext (fun t => { t with diagPort := port, events := es, panicCause := c })
      (step { s with diagPort := port, events := es, panicCause := c }) =
    mapNext (fun t => { t with diagPort := port, events := es, panicCause := c }) (step s)

/-! ### Invariants -/

/-- R35, R51, R52, R80, R301, R335: every tick keeps the invariant of the block. -/
def Obligations.StepKeepsInvariant : Prop :=
  ∀ s t : State, s.Inv → step s = .next t → t.Inv

/-- R56: the state after initialisation meets the invariant. -/
def Obligations.ResetMeetsInvariant : Prop := State.reset.Inv

/-- R49, R50, R51, R52, R102: no tick changes ROM, the device table, `W`, the start latch or the diagnostic port. -/
def Obligations.StepKeepsRomAndConfiguration : Prop :=
  ∀ s t : State, step s = .next t →
    t.rom = s.rom ∧ t.devices = s.devices ∧ t.W = s.W ∧ t.started = s.started ∧ t.diagPort = s.diagPort

/-- R86, R94 (decision D21): a tick adds events at the end of the record, and RAM after it is RAM before it with the
recorded writes made in their order: no RAM byte changes without an event. -/
def Obligations.RamChangesOnlyByRecordedWrites : Prop :=
  ∀ s t : State, step s = .next t → ∃ es, t.events = s.events ++ es ∧ t.ram = replay es s.ram

/-- R56, R330 (decision D14 for the empty device table, D10 for the legal widths): the values after initialisation
with `W` at its default 3 and the empty image. The empty image, the
latch's bits, the diagnostic port and the device inputs are the model's choice (log entries 1, 6, 8, 9) and are
not stated. -/
def Obligations.ResetValues : Prop :=
  State.reset.pc = 0 ∧ State.reset.status = .halted ∧ State.reset.D.p = 0 ∧ State.reset.R.p = 0 ∧
  (∀ i, State.reset.D.slot i = 0 ∧ State.reset.R.slot i = 0) ∧ (∀ a, State.reset.ram.read a = 0) ∧
  (∀ i : Fin 16, State.reset.devices[i] = none) ∧ State.reset.W = .w3 ∧ State.reset.started = false

/-! ### Arithmetic and logic. Each statement is about the unconditional form of every width; the skip-flagged forms are
those of SkipFlaggedExecutesAsUnflagged and SuppressedInstructionOnlyPopsCondition. -/

/-- R180. -/
def Obligations.AddPushesWrappedSum : Prop :=
  ∀ w : Width, (∀ skip, encode (.add skip w) = [opcodeByte skip w 0]) ∧
    ∀ s : State, ∃ D', s.D.After (2 * w.bytes) w.bytes
        ((s.D.value w.bytes w.bytes + s.D.value 0 w.bytes) % 2 ^ (8 * w.bytes)) D' ∧
      exec (.add false w) s = .next { s with D := D', skip := { flag := false, exec := true } }

/-- R181. -/
def Obligations.AndPushesBitwiseAnd : Prop :=
  ∀ w : Width, (∀ skip, encode (.and skip w) = [opcodeByte skip w 1]) ∧
    ∀ s : State, s.D.value w.bytes w.bytes &&& s.D.value 0 w.bytes < 2 ^ (8 * w.bytes) ∧
      ∃ D', s.D.After (2 * w.bytes) w.bytes (s.D.value w.bytes w.bytes &&& s.D.value 0 w.bytes) D' ∧
        exec (.and false w) s = .next { s with D := D', skip := { flag := false, exec := true } }

/-- R182. -/
def Obligations.XorPushesExclusiveOr : Prop :=
  ∀ w : Width, (∀ skip, encode (.xor skip w) = [opcodeByte skip w 2]) ∧
    ∀ s : State, ∃ D', s.D.After (2 * w.bytes) w.bytes (s.D.value w.bytes w.bytes ^^^ s.D.value 0 w.bytes) D' ∧
      exec (.xor false w) s = .next { s with D := D', skip := { flag := false, exec := true } }

/-- R183 (decision D23: the bits shifted out of the top are lost): right by the low nibble of the control byte, then
left by its high nibble; multiplication and division say it without shifts. -/
def Obligations.ShiftPushesShiftedValue : Prop :=
  ∀ w : Width, (∀ skip, encode (.shift skip w) = [opcodeByte skip w 3]) ∧
    ∀ s : State, ∃ D', s.D.After (w.bytes + 1) w.bytes
        (s.D.value 1 w.bytes / 2 ^ ((s.D.peek 0).toNat % 16) * 2 ^ ((s.D.peek 0).toNat / 16) % 2 ^ (8 * w.bytes)) D' ∧
      exec (.shift false w) s = .next { s with D := D', skip := { flag := false, exec := true } }

/-- R184: one result byte whatever the width, of the unsigned comparison. -/
def Obligations.ComparePushesOneByte : Prop :=
  ∀ w : Width, (∀ skip, encode (.cmp skip w) = [opcodeByte skip w 5]) ∧
    ∀ s : State, ∃ D', s.D.After (2 * w.bytes) 1
        (if s.D.value w.bytes w.bytes > s.D.value 0 w.bytes then 1
         else if s.D.value w.bytes w.bytes < s.D.value 0 w.bytes then 255 else 0) D' ∧
      exec (.cmp false w) s = .next { s with D := D', skip := { flag := false, exec := true } }

/-! ### Stack manipulation -/

/-- R200: the two top values change places as whole values, slot by slot; the pointer is unchanged. -/
def Obligations.SwapExchangesTopValues : Prop :=
  ∀ w : Width, (∀ skip, encode (.swap skip w) = [opcodeByte skip w 4]) ∧
    ∀ s : State, ∃ D', D'.p = s.D.p ∧
      (∀ i : BitVec 8, D'.slot i =
        if (i - (s.D.p - BitVec.ofNat 8 (2 * w.bytes))).toNat < w.bytes then s.D.slot (i + BitVec.ofNat 8 w.bytes)
        else if (i - (s.D.p - BitVec.ofNat 8 (2 * w.bytes))).toNat < 2 * w.bytes then
          s.D.slot (i - BitVec.ofNat 8 w.bytes)
        else s.D.slot i) ∧
      exec (.swap false w) s = .next { s with D := D', skip := { flag := false, exec := true } }

/-- R201: the top value stands twice; the slots above the pointer take the copy. -/
def Obligations.DupCopiesTopValue : Prop :=
  ∀ w : Width, (∀ skip, encode (.dup skip w) = [opcodeByte skip w 8]) ∧
    ∀ s : State, ∃ D', D'.p = s.D.p + BitVec.ofNat 8 w.bytes ∧
      (∀ i : BitVec 8, D'.slot i =
        if (i - s.D.p).toNat < w.bytes then s.D.slot (i - BitVec.ofNat 8 w.bytes) else s.D.slot i) ∧
      exec (.dup false w) s = .next { s with D := D', skip := { flag := false, exec := true } }

/-- R202: the dropped slots read 0 afterwards. -/
def Obligations.DropZeroesTopSlots : Prop :=
  ∀ w : Width, (∀ skip, encode (.drop skip w) = [opcodeByte skip w 9]) ∧
    ∀ s : State, ∃ D', s.D.After w.bytes 0 0 D' ∧
      exec (.drop false w) s = .next { s with D := D', skip := { flag := false, exec := true } }

/-- R203 (decision D11: the order of the bytes is kept). -/
def Obligations.ToReturnMovesValueWhole : Prop :=
  ∀ w : Width, (∀ skip, encode (.tor skip w) = [opcodeByte skip w 10]) ∧
    ∀ s : State, ∃ D' R', s.D.After w.bytes 0 0 D' ∧ s.R.After 0 w.bytes (s.D.value 0 w.bytes) R' ∧
      exec (.tor false w) s = .next { s with D := D', R := R', skip := { flag := false, exec := true } }

/-- R204 (decision D11). -/
def Obligations.FromReturnMovesValueWhole : Prop :=
  ∀ w : Width, (∀ skip, encode (.fromr skip w) = [opcodeByte skip w 11]) ∧
    ∀ s : State, ∃ D' R', s.R.After w.bytes 0 0 R' ∧ s.D.After 0 w.bytes (s.R.value 0 w.bytes) D' ∧
      exec (.fromr false w) s = .next { s with D := D', R := R', skip := { flag := false, exec := true } }

/-- R44 (its part on the buffer is marked derived): `pop_n` after `push_n` gives the value back on every stack,
restores the pointer, and leaves the slots used at 0 and every other slot as it was. -/
def Obligations.PopAfterPushReturnsValue : Prop :=
  ∀ (w : Width) (v : Nat) (S : Stack), v < 2 ^ (8 * w.bytes) →
    ((S.pushN w.bytes v).popN w.bytes).1 = v ∧ ((S.pushN w.bytes v).popN w.bytes).2.p = S.p ∧
    ∀ i : BitVec 8, ((S.pushN w.bytes v).popN w.bytes).2.slot i = if (i - S.p).toNat < w.bytes then 0 else S.slot i

/-- R41: pushing 256 bytes returns the pointer to its starting value for the first time, with no fault, and the next
push overwrites the byte pushed 256 pushes earlier. -/
def Obligations.StackWrapsAfter256Pushes : Prop :=
  (∀ (bs : List Byte) (S : Stack), bs ≠ [] → bs.length ≤ 256 → ((S.pushBytes bs).p = S.p ↔ bs.length = 256)) ∧
  (∀ (b c : Byte) (bs : List Byte) (S : Stack), bs.length = 255 →
    (S.pushBytes (b :: bs)).slot S.p = b ∧ (S.pushBytes (b :: bs ++ [c])).slot S.p = c ∧
    (S.pushBytes (b :: bs ++ [c])).p = S.p + 1)

/-- R40: popping at pointer 0 wraps to 255 and returns exactly the residual byte of slot 255, then zeroes it. -/
def Obligations.UnderflowReturnsResidualByte : Prop :=
  ∀ S : Stack, S.p = 0 → S.pop.1 = S.slot 255 ∧ S.pop.2.p = 255 ∧
    ∀ i : BitVec 8, S.pop.2.slot i = if i = 255 then 0 else S.slot i

/-! ### Loads and stores -/

/-- R220, R219 (decision D4 for the byte order, D5 and D24 for the fault): `W` address bytes and `w` value bytes are popped; in range, the
value's big-endian bytes are stored in ascending order and every other byte of RAM reads as before. -/
def Obligations.StoreWritesBigEndian : Prop :=
  ∀ w : Width, (∀ skip, encode (.store skip w) = [opcodeByte skip w 6]) ∧
    ∀ s : State, s.ram.wf = true → s.D.value 0 s.W.bytes + w.bytes ≤ addressSpace s.W →
      ∃ D' ram', s.D.After (s.W.bytes + w.bytes) 0 0 D' ∧
        s.ram.Stored (s.D.value 0 s.W.bytes) w.bytes (s.D.value s.W.bytes w.bytes) ram' ∧
        exec (.store false w) s = .next
          { s with D := D', ram := ram', skip := { flag := false, exec := true },
                   events := s.events ++ storeEvents (s.D.value 0 s.W.bytes) w.bytes (s.D.value s.W.bytes w.bytes) }

/-- R219, R301 (decisions D5 and D24): a store past the top of RAM pops its operands and panics; no RAM byte and no
event. -/
def Obligations.StoreOutsideRamPanics : Prop :=
  ∀ (w : Width) (s : State), addressSpace s.W < s.D.value 0 s.W.bytes + w.bytes →
    ∃ D', s.D.After (s.W.bytes + w.bytes) 0 0 D' ∧
      exec (.store false w) s = .next
        { s with D := D', skip := { flag := false, exec := true },
                 status := .panic, panicCause := some .ramOutOfRange }

/-- R221, R219 (decision D4 for the byte order, D5 and D24 for the fault): the address is popped, the big-endian value is pushed, RAM is
unchanged. -/
def Obligations.LoadPushesBigEndianValue : Prop :=
  ∀ w : Width, (∀ skip, encode (.load skip w) = [opcodeByte skip w 7]) ∧
    ∀ s : State, s.D.value 0 s.W.bytes + w.bytes ≤ addressSpace s.W →
      ∃ D', s.D.After s.W.bytes w.bytes (s.ram.valueAt (s.D.value 0 s.W.bytes) w.bytes) D' ∧
        exec (.load false w) s = .next { s with D := D', skip := { flag := false, exec := true } }

/-- R219, R301 (decisions D5 and D24): a load past the top of RAM pops its address, pushes nothing and panics. -/
def Obligations.LoadOutsideRamPanics : Prop :=
  ∀ (w : Width) (s : State), addressSpace s.W < s.D.value 0 s.W.bytes + w.bytes →
    ∃ D', s.D.After s.W.bytes 0 0 D' ∧
      exec (.load false w) s = .next
        { s with D := D', skip := { flag := false, exec := true },
                 status := .panic, panicCause := some .ramOutOfRange }

/-- R219: a popped address is always below `M`, so an access of one byte is never out of range. -/
def Obligations.PoppedAddressIsBelowM : Prop :=
  ∀ s : State, s.D.value 0 s.W.bytes < addressSpace s.W

/-- R222 (marked derived; decisions D4 and D5): a load at the address and width of a store just made pushes the value stored. -/
def Obligations.LoadAfterStoreReturnsValue : Prop :=
  ∀ (w : Width) (s t : State) (D₁ : Stack), s.ram.wf = true →
    s.D.value 0 s.W.bytes + w.bytes ≤ addressSpace s.W → exec (.store false w) s = .next t →
    t.D.After 0 s.W.bytes (s.D.value 0 s.W.bytes) D₁ →
    ∃ u, exec (.load false w) { t with D := D₁ } = .next u ∧
      u.D.value 0 w.bytes = s.D.value s.W.bytes w.bytes ∧ u.D.p = t.D.p + BitVec.ofNat 8 w.bytes ∧ u.ram = t.ram

/-! ### Control transfer and immediates -/

/-- R240: the target is absolute and zero-extended; `jump` itself never faults, a target above ROM included. -/
def Obligations.JumpSetsPcToTarget : Prop :=
  ∀ w : Width, (∀ skip, encode (.jump skip w) = [opcodeByte skip w 12]) ∧
    ∀ s : State, s.D.value 0 w.bytes < 2 ^ 32 ∧ ∃ D', s.D.After w.bytes 0 0 D' ∧
      exec (.jump false w) s = .next
        { s with pc := BitVec.ofNat 33 (s.D.value 0 w.bytes), D := D', skip := { flag := false, exec := true } }

/-- R241, R127 (decisions D3 and D17): a literal in range pushes its immediate and moves `pc` past it. -/
def Obligations.LiteralPushesImmediate : Prop :=
  ∀ (w : Width) (imm : BitVec 32),
    (∀ skip, encode (.lit skip w imm) = opcodeByte skip w 13 :: bytesOf w.bytes imm.toNat) ∧
    ∀ s : State, s.pc.toNat + w.bytes ≤ addressSpace s.W →
      ∃ D', s.D.After 0 w.bytes imm.toNat D' ∧
        exec (.lit false w imm) s = .next
          { s with pc := s.pc + BitVec.ofNat 33 w.bytes, D := D', skip := { flag := false, exec := true } }

/-- R241, R127 (decision D3): the tick that fetches an unconditional literal pushes the ROM bytes after the opcode
byte in ROM order, the last on top, and moves `pc` by `1 + w`. -/
def Obligations.LiteralTickPushesRomBytes : Prop :=
  ∀ (w : Width) (s : State), s.status = .running → s.pc.toNat + 1 + w.bytes ≤ addressSpace s.W →
    s.rom.read s.pc.toNat = opcodeByte false w 13 →
    ∃ D', D'.p = s.D.p + BitVec.ofNat 8 w.bytes ∧
      (∀ i : BitVec 8, D'.slot i =
        if (i - s.D.p).toNat < w.bytes then s.rom.read (s.pc.toNat + 1 + (i - s.D.p).toNat) else s.D.slot i) ∧
      step s = .next
        { s with pc := s.pc + 1 + BitVec.ofNat 33 w.bytes, D := D', skip := { flag := false, exec := true } }

/-! ### Devices and the host -/

/-- R264, R266 (decisions D12 and D13): all `w` selectors are popped, the top first; each call's RAM writes, its event
and its result come in that order; the result of the top selector ends deepest. The devices' answers are the launch
input (log entry 1), any bytes and any RAM writes. -/
def Obligations.DeviceInterruptCallsEachSelector : Prop :=
  ∀ w : Width, (∀ skip, encode (.dev skip w) = [opcodeByte skip w 14]) ∧
    ∀ (s : State) (replies : List (List Host.Cell × Byte)) (rest : List DeviceReply),
      replies.length = w.bytes → s.deviceReplies = returning replies ++ rest →
      (∀ r ∈ replies, ∀ c ∈ r.1, c.1 < addressSpace s.W) →
      (∀ j, j < w.bytes → (findDevice s.devices (s.D.peek j)).isSome = true) →
      ∃ D', s.D.After w.bytes w.bytes (bigEndian (replies.map (·.2))) D' ∧
        exec (.dev false w) s = .next
          { s with
            D := D', skip := { flag := false, exec := true }
            ram := Memory.writeCells (replies.flatMap (·.1)) s.ram
            events := s.events ++ (List.zipWith (callEvents s.devices) (s.D.topBytes w.bytes) replies).flatten
            deviceReplies := rest, deviceCalls := s.deviceCalls + w.bytes }

/-- R264, R301 (decisions D12 and D24): the first unmatched selector panics; all selectors are popped, the results of
the selectors before it are pushed, and those after it are not dispatched. That the devices' answers are the launch
input, of which as many are used up as calls were made, is the model's choice (log entry 1), and so is the record of
the fault (log entry 4). -/
def Obligations.UnmatchedSelectorPanics : Prop :=
  ∀ (w : Width) (s : State) (replies : List (List Host.Cell × Byte)) (rest : List DeviceReply),
    replies.length < w.bytes → s.deviceReplies = returning replies ++ rest →
    (∀ r ∈ replies, ∀ c ∈ r.1, c.1 < addressSpace s.W) →
    (∀ j, j < replies.length → (findDevice s.devices (s.D.peek j)).isSome = true) →
    findDevice s.devices (s.D.peek replies.length) = none →
    ∃ D', s.D.After w.bytes replies.length (bigEndian (replies.map (·.2))) D' ∧
      exec (.dev false w) s = .next
        { s with
          D := D', skip := { flag := false, exec := true }
          ram := Memory.writeCells (replies.flatMap (·.1)) s.ram
          events := s.events ++ (List.zipWith (callEvents s.devices) (s.D.topBytes w.bytes) replies).flatten
          deviceReplies := rest, deviceCalls := s.deviceCalls + replies.length
          status := .panic, panicCause := some .unregisteredDevice }

/-- R268, I6, I7, I8 (decisions D13 and D27): a device that never returns leaves the block stuck, and one that breaks
its contract has no meaning, at whichever of the `w` calls it comes. The third clause is the model's choice: that a
device's write at or above `M` is refused as a breach of the contract is log entry 3, and no rule says it. So is the form
of the first two: the answers are the launch input (log entry 1), and a stuck tick is a fault (log entry 2). -/
def Obligations.DeviceThatDoesNotAnswerStops : Prop :=
  ∀ (w : Width) (s : State) (replies : List (List Host.Cell × Byte)) (rest : List DeviceReply),
    replies.length < w.bytes → (∀ r ∈ replies, ∀ c ∈ r.1, c.1 < addressSpace s.W) →
    (∀ j, j ≤ replies.length → (findDevice s.devices (s.D.peek j)).isSome = true) →
    (s.deviceReplies = returning replies ++ .hangs :: rest →
      exec (.dev false w) s = .fault .deviceNeverReturns) ∧
    (s.deviceReplies = returning replies ++ .breaksContract :: rest →
      exec (.dev false w) s = .refused .deviceOutsideContract) ∧
    (∀ (writes : List Host.Cell) (r : Byte), (∃ c ∈ writes, addressSpace s.W ≤ c.1) →
      s.deviceReplies = returning replies ++ .returns writes r :: rest →
      exec (.dev false w) s = .refused .deviceOutsideContract)

/-- R264, R100, R268 (log entry 1): where the launch input runs out at one of the `w` calls, the free value takes the
place of that call's answer and does what the same answer in the launch input does, whatever it is. The device sees the
RAM writes of the earlier calls of the same instruction. Said of one call and applied again, it covers every call. -/
def Obligations.FreeAnswerActsAsLaunchAnswer : Prop :=
  ∀ (w : Width) (s : State) (replies : List (List Host.Cell × Byte)) (found : Fin 16 × DeviceEntry),
    replies.length < w.bytes → s.deviceReplies = returning replies →
    (∀ r ∈ replies, ∀ c ∈ r.1, c.1 < addressSpace s.W) →
    (∀ j, j < replies.length → (findDevice s.devices (s.D.peek j)).isSome = true) →
    findDevice s.devices (s.D.peek replies.length) = some found →
    exec (.dev false w) s = exec (.dev false w)
      { s with deviceReplies := returning replies ++
          [Config.deviceReply found.2.dev (s.deviceCalls + replies.length) (s.D.peek replies.length)
            (Memory.writeCells (replies.flatMap (·.1)) s.ram)] }

/-- R263, R262: with unique selectors, the scan finds the entry that holds exactly this byte, and finds none exactly
when no valid entry holds it. -/
def Obligations.FindMatchesWholeSelector : Prop :=
  ∀ s : State, s.Inv → ∀ sel : Byte,
    (∀ (i : Fin 16) (e : DeviceEntry),
      findDevice s.devices sel = some (i, e) ↔ s.devices[i] = some e ∧ e.sel = sel) ∧
    (findDevice s.devices sel = none ↔ ∀ (i : Fin 16) (e : DeviceEntry), s.devices[i] = some e → e.sel ≠ sel)

/-- R261 (decision D14 for the refusal): the three outcomes of a registration. Before the start it is a failure exactly
when the selector is taken or all entries are valid, and else it succeeds; a success fills one invalid entry and changes
nothing else. -/
def Obligations.RegisterInstallsOrFails : Prop :=
  ∀ (pick : Fin 16) (sel : Byte) (dev : Nat) (s : State),
    (s.started = true → register pick sel dev s = .outsideSpec) ∧
    (s.started = false →
      (register pick sel dev s = .failure ↔
        (∃ (i : Fin 16) (e : DeviceEntry), s.devices[i] = some e ∧ e.sel = sel) ∨
          ∀ i : Fin 16, s.devices[i] ≠ none) ∧
      ((∀ (i : Fin 16) (e : DeviceEntry), s.devices[i] = some e → e.sel ≠ sel) →
        (∃ i : Fin 16, s.devices[i] = none) → ∃ t, register pick sel dev s = .done t) ∧
      ∀ t, register pick sel dev s = .done t →
        ∃ i : Fin 16, s.devices[i] = none ∧
          t = { s with devices := s.devices.set i (some { sel := sel, dev := dev }) } ∧
          (findDevice t.devices sel).map (·.2) = some { sel := sel, dev := dev })

/-- R261 (log entry 10): every invalid entry can be the one a registration takes. -/
def Obligations.RegisterMayTakeAnyFreeEntry : Prop :=
  ∀ (i : Fin 16) (sel : Byte) (dev : Nat) (s : State), s.started = false → s.devices[i] = none →
    findDevice s.devices sel = none →
    register i sel dev s = .done { s with devices := s.devices.set i (some { sel := sel, dev := dev }) }

/-- R51, R261, R335: the host's operations keep the invariant. -/
def Obligations.HostOperationsKeepInvariant : Prop :=
  (∀ (pick : Fin 16) (sel : Byte) (dev : Nat) (s t : State), s.Inv → register pick sel dev s = .done t → t.Inv) ∧
  (∀ s t : State, s.Inv → start s = .done t → t.Inv)

/-- R335, R50 (decision D9), R32: `start` is accepted once, from Halted, and whatever the program then does no later
start is accepted. -/
def Obligations.StartAcceptedOnce : Prop :=
  (∀ s : State, s.status = .halted → s.started = false →
    start s = .done { s with status := .running, started := true }) ∧
  ∀ (s t u : State) (n : Nat), start s = .done t → core.run n t = .next u → start u = .outsideSpec

/-- R331: an image longer than `M`, or one that cannot be read, leaves no block at all; one of exactly `M` bytes is
accepted. -/
def Obligations.InitRefusesOversizeImage : Prop :=
  ∀ (l : Launch) (W : Width), l.W = W.bytes →
    (l.image = none → init l = .loadFailure .imageUnreadable) ∧
    ∀ image, l.image = some image →
      (2 ^ (8 * l.W) < image.length → init l = .loadFailure .imageTooLarge) ∧
      (image.length ≤ 2 ^ (8 * l.W) → ∃ s, init l = .ready s)

/-- R49 (decision D10): a launch whose word width is not 1, 2, 3 or 4 is refused, whatever its image; that the refusal is
a load failure of this name is the model's choice (log entry 7). -/
def Obligations.InitRefusesIllegalWordWidth : Prop :=
  ∀ l : Launch, l.W ≠ 1 → l.W ≠ 2 → l.W ≠ 3 → l.W ≠ 4 → init l = .loadFailure .illegalWordWidth

/-- R82 (decision D7), R330, R56: a block that is ready holds the image from ROM address 0 on and 0 above it, and every
element to which R56 gives a value has that value; it meets the invariant. The last clause also gives the fields for
which R56 has no value, and there it is the model's choice: the latch bits (log entry 6), the diagnostic port (log entry
8), the device inputs and their count (log entry 1), the empty records (log entries 4 and 5). -/
def Obligations.InitLoadsImageAndMeetsInvariant : Prop :=
  ∀ (l : Launch) (s : State) (image : List Byte), init l = .ready s → l.image = some image →
    (∀ a, s.rom.read a = image.getD a 0) ∧ s.W.bytes = l.W ∧ s.Inv ∧
    s = { State.reset with W := s.W, rom := s.rom, diagPort := l.diagPort, deviceReplies := l.deviceReplies }

/-! ### Diagnostic -/

/-- R290 (decision D15): an architectural no-op; where the port exists one event carries the item selected, `pc` being
the address after the opcode byte. -/
def Obligations.DiagnosticOnlyReports : Prop :=
  (∀ skip, encode (.diag skip .dataPointer) = [opcodeByte skip .w1 15] ∧
    encode (.diag skip .returnPointer) = [opcodeByte skip .w2 15] ∧
    encode (.diag skip .programCounter) = [opcodeByte skip .w3 15] ∧
    encode (.diag skip .wordWidth) = [opcodeByte skip .w4 15]) ∧
  ∀ (item : DiagItem) (s : State),
    (s.diagPort = false → exec (.diag false item) s = .next { s with skip := { flag := false, exec := true } }) ∧
    (s.diagPort = true → ∃ v : BitVec 33,
      exec (.diag false item) s = .next
        { s with skip := { flag := false, exec := true }, events := s.events ++ [.diag item v] } ∧
      (item = .dataPointer → v.toNat = s.D.p.toNat) ∧ (item = .returnPointer → v.toNat = s.R.p.toNat) ∧
      (item = .programCounter → v = s.pc) ∧ (item = .wordWidth → v.toNat = s.W.bytes))
end

