-- ==== Sys2Proof/Laws/Bytes.lean ====
section
/-! SUPPORT. The byte-order helpers: lengths, values, and their inverse laws. -/

namespace Sys2Proof

@[simp] theorem bytesOf_length (n v : Nat) : (bytesOf n v).length = n := by
  induction n with
  | zero => rfl
  | succ n ih => simp [bytesOf, ih]

/-- The byte of a value by division. -/
theorem byteOf_toNat (i v : Nat) : (byteOf i v).toNat = v / 256 ^ i % 256 := by
  simp [byteOf, Nat.shiftRight_eq_div_pow, pow_mul]

/-- Only a value's low `n` bytes matter to a byte below the `n`-th (R42). -/
theorem byteOf_mod (i n v : Nat) (h : i < n) : byteOf i (v % 256 ^ n) = byteOf i v := by
  apply BitVec.eq_of_toNat_eq
  rw [byteOf_toNat, byteOf_toNat]
  obtain ⟨k, rfl⟩ : ∃ k, n = i + (1 + k) := ⟨n - i - 1, by omega⟩
  rw [pow_add, Nat.mod_mul_right_div_self, pow_add, pow_one, Nat.mod_mul_right_mod]

theorem bytesOf_getElem (n v j : Nat) (h : j < (bytesOf n v).length) :
    (bytesOf n v)[j] = byteOf (n - 1 - j) v := by
  induction n generalizing j with
  | zero => simp at h
  | succ n ih =>
    cases j with
    | zero => rfl
    | succ j =>
      simp only [bytesOf, List.getElem_cons_succ]
      rw [ih]
      congr 1
      omega

theorem bigEndian_append (as bs : List Byte) :
    bigEndian (as ++ bs) = bigEndian as * 256 ^ bs.length + bigEndian bs := by
  have go : ∀ (bs : List Byte) (v : Nat),
      bs.foldl (fun v b => v * 256 + b.toNat) v = v * 256 ^ bs.length + bigEndian bs := by
    intro bs
    induction bs with
    | nil => intro v; simp [bigEndian]
    | cons b bs ih =>
      intro v
      simp only [bigEndian, List.foldl_cons, List.length_cons]
      rw [ih, ih (0 * 256 + b.toNat)]
      simp only [bigEndian]
      ring
  rw [bigEndian, List.foldl_append, go]
  rfl

@[simp] theorem bigEndian_nil : bigEndian [] = 0 := rfl

theorem bigEndian_cons (b : Byte) (bs : List Byte) :
    bigEndian (b :: bs) = b.toNat * 256 ^ bs.length + bigEndian bs := by
  have := bigEndian_append [b] bs
  simpa [bigEndian] using this

theorem bigEndian_lt (bs : List Byte) : bigEndian bs < 256 ^ bs.length := by
  induction bs with
  | nil => simp
  | cons b bs ih =>
    rw [bigEndian_cons, List.length_cons, pow_succ]
    have := b.isLt
    nlinarith [Nat.pos_of_ne_zero (pow_ne_zero bs.length (show (256 : Nat) ≠ 0 by decide))]

/-- Assembling the bytes of a value gives the value, modulo `256^n` (R42, R43, R87). -/
theorem bigEndian_bytesOf (n v : Nat) : bigEndian (bytesOf n v) = v % 256 ^ n := by
  induction n with
  | zero => simp [bytesOf, Nat.mod_one]
  | succ n ih =>
    rw [bytesOf, bigEndian_cons, ih, byteOf_toNat, bytesOf_length, pow_succ]
    rw [Nat.mod_mul, mul_comm]
    ring

/-- The bytes of an assembled sequence are the sequence. -/
theorem bytesOf_bigEndian (bs : List Byte) : bytesOf bs.length (bigEndian bs) = bs := by
  have low : ∀ (n i v : Nat), i < n → byteOf i v = byteOf i (v % 256 ^ n) :=
    fun n i v h => (byteOf_mod i n v h).symm
  have cong : ∀ (n v w : Nat), v % 256 ^ n = w % 256 ^ n → bytesOf n v = bytesOf n w := by
    intro n v w h
    apply List.ext_getElem (by simp)
    intro j hj _
    rw [bytesOf_getElem, bytesOf_getElem]
    rw [bytesOf_length] at hj
    rw [low n _ v (by omega), low n _ w (by omega), h]
  induction bs with
  | nil => rfl
  | cons b bs ih =>
    rw [List.length_cons, bytesOf]
    congr 1
    · apply BitVec.eq_of_toNat_eq
      have hb := b.isLt
      have hlt := bigEndian_lt bs
      rw [byteOf_toNat, bigEndian_cons, mul_comm, Nat.mul_add_div (by positivity), Nat.div_eq_of_lt hlt]
      omega
    · rw [cong bs.length _ (bigEndian bs), ih]
      rw [bigEndian_cons, mul_comm, Nat.mul_add_mod]

/-- `2^(8*n) = 256^n`. -/
theorem two_pow_eight_mul (n : Nat) : 2 ^ (8 * n) = 256 ^ n := by rw [pow_mul]; rfl

theorem Width.bytes_pos (w : Width) : 0 < w.bytes := by cases w <;> decide

theorem Width.bytes_le (w : Width) : w.bytes ≤ 4 := by cases w <;> decide

end Sys2Proof
end

