-- ==== Sys2Proof/Laws/Memory.lean ====
section
/-! SUPPORT. The laws of memory: read after write, the canonical form, and the multi-byte forms. -/

namespace Sys2Proof.Machine

open Sys2Proof

/-- The canonical form of a memory that begins with `c`. -/
theorem Memory.wf_cons (c : Host.Cell) (m : Memory) :
    Memory.wf (c :: m) = true ↔ c.2 ≠ 0 ∧ (∀ d ∈ m, c.1 < d.1) ∧ Memory.wf m = true := by
  simp [Memory.wf, and_assoc]

/-- An address no entry lists reads 0. -/
theorem Memory.read_of_not_mem (m : Memory) (a : Nat) (h : ∀ c ∈ m, c.1 ≠ a) : Memory.read m a = 0 := by
  induction m with
  | nil => rfl
  | cons c m ih =>
    rw [Memory.read, if_neg (h c (by simp))]
    exact ih fun d hd => h d (by simp [hd])

/-- What a write can list: the written cell and the old cells. -/
theorem Memory.mem_write {a : Nat} {b : Byte} {m : Memory} {c : Host.Cell} (h : c ∈ Memory.write a b m) :
    (c = (a, b) ∧ b ≠ 0) ∨ c ∈ m := by
  induction m with
  | nil => simp only [Memory.write] at h; split at h <;> simp_all
  | cons d m ih =>
    simp only [Memory.write] at h
    split at h
    · split at h <;> simp_all
    · split at h
      · split at h
        · exact .inr (by simp [h])
        · rcases List.mem_cons.1 h with h | h
          · exact .inl ⟨h, ‹_›⟩
          · exact .inr (by simp [h])
      · rcases List.mem_cons.1 h with h | h
        · exact .inr (by simp [h])
        · rcases ih h with h | h
          · exact .inl h
          · exact .inr (by simp [h])

/-- A write keeps the canonical form. -/
theorem Memory.wf_write (a : Nat) (b : Byte) (m : Memory) (h : Memory.wf m = true) :
    Memory.wf (Memory.write a b m) = true := by
  induction m with
  | nil =>
    simp only [Memory.write]
    split
    · rfl
    · exact (Memory.wf_cons _ _).2 ⟨‹_›, by simp, rfl⟩
  | cons c m ih =>
    obtain ⟨h0, hlt, hm⟩ := (Memory.wf_cons c m).1 h
    simp only [Memory.write]
    split
    · split
      · exact h
      · refine (Memory.wf_cons _ _).2 ⟨‹_›, ?_, h⟩
        intro d hd
        rcases List.mem_cons.1 hd with rfl | hd
        · assumption
        · exact lt_trans ‹_› (hlt d hd)
    · split
      · split
        · exact hm
        · refine (Memory.wf_cons _ _).2 ⟨‹_›, ?_, hm⟩
          intro d hd
          have := hlt d hd
          simp_all
      · refine (Memory.wf_cons _ _).2 ⟨h0, ?_, ih hm⟩
        intro d hd
        rcases Memory.mem_write hd with ⟨rfl, -⟩ | hd
        · simp only; omega
        · exact hlt d hd

/-- Reading after a write: the written address gives the byte written, every other address what it gave before. -/
theorem Memory.read_write (a : Nat) (b : Byte) (m : Memory) (x : Nat) (h : Memory.wf m = true) :
    Memory.read (Memory.write a b m) x = if x = a then b else Memory.read m x := by
  induction m with
  | nil =>
    simp only [Memory.write]
    split
    · subst_vars; simp [Memory.read]
    · by_cases hx : x = a
      · simp [Memory.read, hx]
      · simp [Memory.read, hx, Ne.symm hx]
  | cons c m ih =>
    obtain ⟨_, hlt, hm⟩ := (Memory.wf_cons c m).1 h
    simp only [Memory.write]
    split
    · split
      · subst_vars
        split
        · subst_vars
          rw [Memory.read_of_not_mem]
          intro d hd
          rcases List.mem_cons.1 hd with rfl | hd
          · omega
          · have := hlt d hd; omega
        · rfl
      · simp [Memory.read, eq_comm]
    · split
      · subst_vars
        split
        · subst_vars
          by_cases hx : x = c.1
          · simp only [hx, if_true]
            exact Memory.read_of_not_mem _ _ fun d hd => by have := hlt d hd; omega
          · simp [Memory.read, hx, Ne.symm hx]
        · by_cases hx : x = c.1
          · simp [Memory.read, hx]
          · simp [Memory.read, hx, Ne.symm hx]
      · by_cases hx : x = c.1
        · subst hx; simp [Memory.read, Ne.symm ‹¬a = c.1›]
        · simp [Memory.read, Ne.symm hx, ih hm]

/-- Two memories in canonical form that read the same everywhere are the same list. -/
theorem Memory.ext_read (m m' : Memory) (h : Memory.wf m = true) (h' : Memory.wf m' = true)
    (hr : ∀ x, Memory.read m x = Memory.read m' x) : m = m' := by
  induction m generalizing m' with
  | nil =>
    cases m' with
    | nil => rfl
    | cons c m' =>
      have h0 := ((Memory.wf_cons c m').1 h').1
      have := hr c.1
      simp [Memory.read] at this
      exact absurd this.symm h0
  | cons c m ih =>
    obtain ⟨h0, hlt, hm⟩ := (Memory.wf_cons c m).1 h
    cases m' with
    | nil =>
      have := hr c.1
      simp [Memory.read] at this
      exact absurd this h0
    | cons d m' =>
      obtain ⟨h0', hlt', hm'⟩ := (Memory.wf_cons d m').1 h'
      have key : c.1 = d.1 := by
        rcases lt_trichotomy c.1 d.1 with hcd | hcd | hcd
        · have hx := hr c.1
          rw [Memory.read_of_not_mem (d :: m')] at hx
          · simp [Memory.read] at hx; exact absurd hx h0
          · intro e he
            rcases List.mem_cons.1 he with rfl | he
            · omega
            · have := hlt' e he; omega
        · exact hcd
        · have hx := hr d.1
          rw [Memory.read_of_not_mem (c :: m)] at hx
          · simp [Memory.read] at hx; exact absurd hx.symm h0'
          · intro e he
            rcases List.mem_cons.1 he with rfl | he
            · omega
            · have := hlt e he; omega
      have hv : c.2 = d.2 := by
        have := hr c.1
        simp only [Memory.read, if_true, if_pos key.symm] at this
        exact this
      have hcd : c = d := Prod.ext key hv
      subst hcd
      rw [ih m' hm hm']
      intro x
      by_cases hx : c.1 = x
      · subst hx
        rw [Memory.read_of_not_mem m, Memory.read_of_not_mem m']
        · exact fun e he => by have := hlt' e he; omega
        · exact fun e he => by have := hlt e he; omega
      · have := hr x
        simpa [Memory.read, hx] using this

/-- Writes in order keep the canonical form. -/
theorem Memory.wf_writeCells (cs : List Host.Cell) (m : Memory) (h : Memory.wf m = true) :
    Memory.wf (Memory.writeCells cs m) = true := by
  induction cs generalizing m with
  | nil => exact h
  | cons c cs ih => exact ih _ (Memory.wf_write _ _ _ h)

/-- What writes in order can list. -/
theorem Memory.mem_writeCells {cs : List Host.Cell} {m : Memory} {c : Host.Cell}
    (h : c ∈ Memory.writeCells cs m) : c ∈ cs ∨ c ∈ m := by
  induction cs generalizing m with
  | nil => exact .inr h
  | cons d cs ih =>
    rcases ih h with h | h
    · exact .inl (by simp [h])
    · rcases Memory.mem_write h with ⟨rfl, -⟩ | h
      · exact .inl (by simp)
      · exact .inr h

/-- The cells laid out from an address are bytes at addresses from it on. -/
theorem mem_cellsFrom {a : Nat} {bs : List Byte} {c : Host.Cell} (h : c ∈ cellsFrom a bs) :
    a ≤ c.1 ∧ c.1 < a + bs.length := by
  induction bs generalizing a with
  | nil => simp [cellsFrom] at h
  | cons b bs ih =>
    rcases List.mem_cons.1 h with rfl | h
    · simp
    · have := ih h
      simp only [List.length_cons]
      omega

/-- Writing bytes from an address on: inside, the byte of the sequence; outside, as before. -/
theorem Memory.read_writeCells_cellsFrom (a : Nat) (bs : List Byte) (m : Memory) (x : Nat)
    (h : Memory.wf m = true) :
    Memory.read (Memory.writeCells (cellsFrom a bs) m) x =
      if a ≤ x ∧ x < a + bs.length then bs.getD (x - a) 0 else Memory.read m x := by
  induction bs generalizing a m with
  | nil => simp [cellsFrom, Memory.writeCells]
  | cons b bs ih =>
    rw [cellsFrom, Memory.writeCells, ih _ _ (Memory.wf_write _ _ _ h), Memory.read_write _ _ _ _ h]
    simp only [List.length_cons]
    by_cases hx : x = a
    · subst hx; simp
    · by_cases hin : a + 1 ≤ x ∧ x < a + 1 + bs.length
      · rw [if_pos hin, if_pos (by omega)]
        obtain ⟨k, rfl⟩ : ∃ k, x = a + 1 + k := ⟨x - (a + 1), by omega⟩
        have e1 : a + 1 + k - (a + 1) = k := by omega
        have e2 : a + 1 + k - a = k + 1 := by omega
        rw [e1, e2, List.getD_cons_succ]
      · rw [if_neg hin, if_neg hx, if_neg (by omega)]

/-- The memory of a byte sequence is in canonical form and lists only addresses it occupies. -/
theorem Memory.ofBytes_wf (a : Nat) (bs : List Byte) :
    Memory.wf (Memory.ofBytes a bs) = true ∧ ∀ c ∈ Memory.ofBytes a bs, a ≤ c.1 ∧ c.1 < a + bs.length := by
  induction bs generalizing a with
  | nil => simp [Memory.ofBytes, Memory.wf]
  | cons b bs ih =>
    obtain ⟨hw, hr⟩ := ih (a + 1)
    simp only [Memory.ofBytes]
    split
    · exact ⟨hw, fun c hc => by have := hr c hc; simp only [List.length_cons]; omega⟩
    · refine ⟨(Memory.wf_cons _ _).2 ⟨‹_›, fun d hd => ?_, hw⟩, fun c hc => ?_⟩
      · have := hr d hd; simp only; omega
      · rcases List.mem_cons.1 hc with rfl | hc
        · simp
        · have := hr c hc; simp only [List.length_cons]; omega

/-- The memory of a byte sequence reads as the sequence, and 0 elsewhere (R82). -/
theorem Memory.read_ofBytes (a : Nat) (bs : List Byte) (x : Nat) :
    Memory.read (Memory.ofBytes a bs) x = if a ≤ x then bs.getD (x - a) 0 else 0 := by
  induction bs generalizing a with
  | nil => simp [Memory.ofBytes, Memory.read]
  | cons b bs ih =>
    have step : Memory.read (Memory.ofBytes a (b :: bs)) x =
        if x = a then b else Memory.read (Memory.ofBytes (a + 1) bs) x := by
      simp only [Memory.ofBytes]
      by_cases hb : b = 0
      · rw [if_pos hb]
        split
        · subst_vars
          exact Memory.read_of_not_mem _ _ fun c hc => by
            have := ((Memory.ofBytes_wf (a + 1) bs).2 c hc).1; omega
        · rfl
      · rw [if_neg hb, Memory.read]
        simp [eq_comm]
    rw [step, ih]
    by_cases hx : x = a
    · subst hx; simp
    · rw [if_neg hx]
      by_cases hlt : a + 1 ≤ x
      · rw [if_pos hlt, if_pos (by omega)]
        obtain ⟨k, rfl⟩ : ∃ k, x = a + 1 + k := ⟨x - (a + 1), by omega⟩
        have e1 : a + 1 + k - (a + 1) = k := by omega
        have e2 : a + 1 + k - a = k + 1 := by omega
        rw [e1, e2, List.getD_cons_succ]
      · rw [if_neg hlt, if_neg (by omega)]

@[simp] theorem Memory.bytes_length (m : Memory) (a n : Nat) : (Memory.bytes m a n).length = n := by
  induction n generalizing a with
  | zero => rfl
  | succ n ih => simp [Memory.bytes, ih]

theorem Memory.bytes_getElem (m : Memory) (a n j : Nat) (h : j < (Memory.bytes m a n).length) :
    (Memory.bytes m a n)[j] = m.read (a + j) := by
  induction n generalizing a j with
  | zero => simp [Memory.bytes] at h
  | succ n ih =>
    cases j with
    | zero => rfl
    | succ j =>
      simp only [Memory.bytes, List.getElem_cons_succ]
      rw [ih]
      congr 1
      omega

/-- The value read by `MemRead` is the big-endian value of the bytes (R87). -/
theorem Memory.bigEndian_bytes (m : Memory) (a n : Nat) : bigEndian (Memory.bytes m a n) = m.valueAt a n := by
  induction n generalizing a with
  | zero => rfl
  | succ n ih => rw [Memory.bytes, bigEndian_cons, ih, Memory.bytes_length, Memory.valueAt]

/-- The memory after the writes of a store, read byte by byte (R87). -/
theorem Memory.stored_writeCells (m : Memory) (a n v : Nat) (h : m.wf = true) :
    m.Stored a n v (Memory.writeCells (cellsFrom a (bytesOf n v)) m) := by
  intro x
  rw [Memory.read_writeCells_cellsFrom _ _ _ _ h, bytesOf_length]
  split
  · have hlt : x - a < (bytesOf n v).length := by rw [bytesOf_length]; omega
    rw [List.getD_eq_getElem _ _ hlt, bytesOf_getElem]
    congr 1
    omega
  · rfl

/-- Replaying the write events of writes in order makes those writes (R86). -/
theorem replay_ramWrites (cs : List Host.Cell) (m : Memory) :
    replay (cs.map fun c => Event.ramWrite c.1 c.2) m = Memory.writeCells cs m := by
  induction cs generalizing m with
  | nil => rfl
  | cons c cs ih => simp [replay, Memory.writeCells, ih]

theorem replay_append (es fs : List Event) (m : Memory) : replay (es ++ fs) m = replay fs (replay es m) := by
  induction es generalizing m with
  | nil => rfl
  | cons e es ih => cases e <;> simp [replay, ih]

/-- Reading back what was stored (R87). -/
theorem Memory.Stored.valueAt_eq {m m' : Memory} {a n v : Nat} (h : m.Stored a n v m') :
    m'.valueAt a n = v % 256 ^ n := by
  have key : ∀ k b, b + k = a + n → a ≤ b → m'.valueAt b k = v % 256 ^ k := by
    intro k
    induction k with
    | zero => intro b _ _; simp [Memory.valueAt, Nat.mod_one]
    | succ k ih =>
      intro b hb hab
      rw [Memory.valueAt, ih (b+1) (by omega) (by omega), h b, if_pos (by omega)]
      have : a + n - 1 - b = k := by omega
      rw [this, byteOf_toNat, pow_succ, Nat.mod_mul]
      ring
  exact key n a rfl le_rfl

/-- The first bytes of a longer read. -/
theorem Memory.bytes_take (m : Memory) (a n k : Nat) (h : k ≤ n) :
    (Memory.bytes m a n).take k = Memory.bytes m a k := by
  apply List.ext_getElem
  · simp [h]
  · intro j h1 h2
    rw [List.getElem_take, Memory.bytes_getElem, Memory.bytes_getElem]

/-- Recorded writes keep the canonical form. -/
theorem replay_wf (es : List Event) (m : Memory) (h : m.wf = true) : (replay es m).wf = true := by
  induction es generalizing m with
  | nil => exact h
  | cons e es ih =>
    cases e
    · exact ih _ (Memory.wf_write _ _ _ h)
    · exact ih _ h
    · exact ih _ h

/-- Recorded writes below `M` keep the memory below `M`. -/
theorem replay_range (M : Nat) (es : List Event) (m : Memory) (h : ∀ c ∈ m, c.1 < M)
    (he : ∀ a b, Event.ramWrite a b ∈ es → a < M) :
    ∀ c ∈ replay es m, c.1 < M := by
  induction es generalizing m with
  | nil => exact h
  | cons e es ih =>
    have he' : ∀ a b, Event.ramWrite a b ∈ es → a < M := fun a b h => he a b (by simp [h])
    cases e
    · refine ih _ ?_ he'
      intro c hc
      rcases Memory.mem_write hc with h1 | h1
      · rw [h1.1]; exact he _ _ (List.mem_cons_self ..)
      · exact h _ h1
    · exact ih _ h he'
    · exact ih _ h he'

end Sys2Proof.Machine
end

