-- ==== Sys2Proof/Laws/Stack.lean ====
section
/-! SUPPORT. The laws of the stacks: what push, pop and their multi-byte forms do, slot by slot. -/

namespace Sys2Proof.Machine

open Sys2Proof

theorem Stack.slot_setSlot (S : Stack) (i j : BitVec 8) (b : Byte) :
    (S.setSlot i b).slot j = if j = i then b else S.slot j := by
  simp only [Stack.slot, Stack.setSlot, Vector.getElem_set]
  by_cases h : j = i
  · simp [h]
  · have : i.toNat ≠ j.toNat := fun e => h (BitVec.eq_of_toNat_eq e.symm)
    simp [h, this]

/-- Two stacks with the same pointer and the same slots are the same. -/
theorem Stack.ext_slots (S T : Stack) (hp : S.p = T.p) (hs : ∀ i, S.slot i = T.slot i) : S = T := by
  obtain ⟨b, p⟩ := S
  obtain ⟨c, q⟩ := T
  simp only at hp
  subst hp
  congr 1
  apply Vector.ext
  intro i hi
  have := hs (BitVec.ofNat 8 i)
  simp only [Stack.slot] at this
  have e : (BitVec.ofNat 8 i).toNat = i := by simp; omega
  simpa [e] using this

@[simp] theorem Stack.push_p (b : Byte) (S : Stack) : (S.push b).p = S.p + 1 := rfl

theorem Stack.push_slot (b : Byte) (S : Stack) (i : BitVec 8) :
    (S.push b).slot i = if i = S.p then b else S.slot i := Stack.slot_setSlot S S.p i b

theorem Stack.pop_value (S : Stack) : S.pop.1 = S.peek 0 := rfl

@[simp] theorem Stack.pop_p (S : Stack) : S.pop.2.p = S.p - 1 := rfl

theorem Stack.pop_slot (S : Stack) (i : BitVec 8) :
    S.pop.2.slot i = if i = S.p - 1 then 0 else S.slot i := Stack.slot_setSlot S (S.p - 1) i 0

/-- What `After` says is one stack. -/
theorem Stack.After.unique {S T U : Stack} {a b v : Nat} (h : S.After a b v T) (h' : S.After a b v U) : T = U :=
  Stack.ext_slots T U (h.1.trans h'.1.symm) fun i => (h.2 i).trans (h'.2 i).symm

/-- Only the low `pushed` bytes of the value matter (R42). -/
theorem Stack.After.congr {S T : Stack} {a b v w : Nat} (h : S.After a b v T) (e : v % 256 ^ b = w % 256 ^ b) :
    S.After a b w T := by
  refine ⟨h.1, fun i => (h.2 i).trans ?_⟩
  split
  · rw [← byteOf_mod _ b v (by omega), ← byteOf_mod _ b w (by omega), e]
  · rfl

/-- Pushing a byte sequence, slot by slot. -/
theorem Stack.pushBytes_spec (bs : List Byte) (S : Stack) (h : bs.length ≤ 256) :
    (S.pushBytes bs).p = S.p + BitVec.ofNat 8 bs.length ∧
    ∀ i : BitVec 8, (S.pushBytes bs).slot i =
      if (i - S.p).toNat < bs.length then bs.getD (i - S.p).toNat 0 else S.slot i := by
  induction bs generalizing S with
  | nil => simp [Stack.pushBytes]
  | cons b bs ih =>
    simp only [List.length_cons] at h ⊢
    obtain ⟨hp, hs⟩ := ih (S.push b) (by omega)
    refine ⟨by rw [Stack.pushBytes, hp, Stack.push_p]; bv_omega, fun i => ?_⟩
    rw [Stack.pushBytes, hs, Stack.push_slot, Stack.push_p]
    by_cases hi : i = S.p
    · subst hi
      have : (S.p - (S.p + 1)).toNat = 255 := by bv_omega
      rw [this, if_neg (by omega)]
      simp
    · have hk : (i - S.p).toNat = (i - (S.p + 1)).toNat + 1 := by bv_omega
      rw [hk, List.getD_cons_succ, if_neg hi]
      simp only [Nat.add_lt_add_iff_right]

/-- `push_n` (R42, R45). -/
theorem Stack.pushN_after (n v : Nat) (S : Stack) (h : n ≤ 256) : S.After 0 n v (S.pushN n v) := by
  obtain ⟨hp, hs⟩ := Stack.pushBytes_spec (bytesOf n v) S (by simpa using h)
  rw [bytesOf_length] at hp
  refine ⟨by rw [Stack.pushN, hp]; simp, fun i => ?_⟩
  rw [Stack.pushN, hs, bytesOf_length]
  simp only [BitVec.ofNat_eq_ofNat, BitVec.sub_zero]
  split
  · have hlt : (i - S.p).toNat < (bytesOf n v).length := by rw [bytesOf_length]; omega
    rw [List.getD_eq_getElem _ _ hlt, bytesOf_getElem]
  · simp

/-- `push` as a one-byte value (R38). -/
theorem Stack.push_after (b : Byte) (S : Stack) : S.After 0 1 b.toNat (S.push b) := by
  have := Stack.pushN_after 1 b.toNat S (by omega)
  have e : byteOf 0 b.toNat = b := by simp [byteOf]
  simpa [Stack.pushN, bytesOf, Stack.pushBytes, e] using this

/-- `pop` (R39). -/
theorem Stack.pop_after (S : Stack) : S.After 1 0 0 S.pop.2 := by
  refine ⟨by simp, fun i => ?_⟩
  rw [Stack.pop_slot]
  by_cases hi : i = S.p - 1
  · subst hi; simp
  · have : ¬ (i - (S.p - BitVec.ofNat 8 1)).toNat < 1 := by
      intro hlt; apply hi; bv_omega
    rw [if_neg hi, if_neg (by omega), if_neg this]

/-- Popping `m` bytes and then doing more: the pops add up. -/
theorem Stack.After.pops {S T U : Stack} {m n b v : Nat} (h : S.After m 0 0 T)
    (h' : T.After n b v U) : S.After (m + n) b v U := by
  have e : T.p - BitVec.ofNat 8 n = S.p - BitVec.ofNat 8 (m + n) := by
    have := h.1
    bv_omega
  refine ⟨by rw [h'.1, e], fun i => ?_⟩
  rw [h'.2 i, e]
  by_cases h1 : (i - (S.p - BitVec.ofNat 8 (m + n))).toNat < b
  · simp only [if_pos h1]
  · simp only [if_neg h1]
    by_cases h2 : (i - (S.p - BitVec.ofNat 8 (m + n))).toNat < n
    · rw [if_pos h2, if_pos (by omega)]
    · rw [if_neg h2, h.2 i]
      simp only [Nat.not_lt_zero, if_false]
      have h4 : (i - (S.p - BitVec.ofNat 8 m)).toNat < m ↔
          (i - (S.p - BitVec.ofNat 8 (m + n))).toNat < m + n := by bv_omega
      simp only [h4]

/-- Popping `m` bytes and then pushing a value. -/
theorem Stack.After.push {S T U : Stack} {m b v : Nat} (h : S.After m 0 0 T) (h' : T.After 0 b v U) :
    S.After m b v U := by
  have e : T.p = S.p - BitVec.ofNat 8 m := by have := h.1; simpa using this
  refine ⟨by rw [h'.1, e]; simp, fun i => ?_⟩
  rw [h'.2 i]
  simp only [BitVec.ofNat_eq_ofNat, BitVec.sub_zero, Nat.not_lt_zero, if_false, e]
  split
  · rfl
  · rw [h.2 i]; simp

/-- What lies on a stack after pops lay deeper before. -/
theorem Stack.After.peek {S T : Stack} {m : Nat} (h : S.After m 0 0 T) (d : Nat) (hd : m + d < 256) :
    T.peek d = S.peek (m + d) := by
  have e : T.p = S.p - BitVec.ofNat 8 m := by have := h.1; simpa using this
  have e2 : T.p - BitVec.ofNat 8 (d + 1) = S.p - BitVec.ofNat 8 (m + d + 1) := by rw [e]; bv_omega
  have : ¬ (S.p - BitVec.ofNat 8 (m + d + 1) - (S.p - BitVec.ofNat 8 m)).toNat < m := by bv_omega
  rw [Stack.peek, Stack.peek, e2, h.2, if_neg (by omega), if_neg this, Nat.add_assoc]

theorem Stack.After.value {S T : Stack} {m : Nat} (h : S.After m 0 0 T) (d n : Nat) (hd : m + d + n ≤ 256) :
    T.value d n = S.value (m + d) n := by
  induction n generalizing d with
  | zero => rfl
  | succ n ih => rw [Stack.value, Stack.value, h.peek d (by omega), ih (d + 1) (by omega)]; rfl

/-- Popping bytes: the bytes that lay on top, the top first, and the stack after. -/
theorem Stack.popBytes_spec (n : Nat) (S : Stack) (h : n ≤ 256) :
    (S.popBytes n).1 = S.topBytes n ∧ S.After n 0 0 (S.popBytes n).2 := by
  induction n generalizing S with
  | zero => exact ⟨rfl, by simp [Stack.popBytes, Stack.After]⟩
  | succ n ih =>
    obtain ⟨hb, ha⟩ := ih S.pop.2 (by omega)
    constructor
    · rw [Stack.popBytes, hb, Stack.pop_value]
      simp only [Stack.topBytes, List.range_succ_eq_map, List.map_cons, List.map_map]
      congr 1
      apply List.map_congr_left
      intro j hj
      rw [List.mem_range] at hj
      rw [(Stack.pop_after S).peek j (by omega)]
      simp [Nat.add_comm]
    · have := (Stack.pop_after S).pops ha
      rw [Nat.add_comm] at this
      exact this

theorem Stack.bigEndian_topBytes (n d : Nat) (S : Stack) :
    bigEndian ((List.range n).map fun j => S.peek (d + j)).reverse = S.value d n := by
  induction n generalizing d with
  | zero => rfl
  | succ n ih =>
    rw [List.range_succ_eq_map, List.map_cons, List.reverse_cons, bigEndian_append, List.map_map]
    have : (fun j => S.peek (d + j)) ∘ Nat.succ = fun j => S.peek (d + 1 + j) := by
      funext j; simp only [Function.comp]; congr 1; omega
    rw [this, ih]
    simp [Stack.value, bigEndian]
    omega

/-- `pop_n`: the value on top, and the stack after (R43). -/
theorem Stack.popN_spec (n : Nat) (S : Stack) (h : n ≤ 256) :
    (S.popN n).1 = S.value 0 n ∧ S.After n 0 0 (S.popN n).2 := by
  obtain ⟨hb, ha⟩ := Stack.popBytes_spec n S h
  refine ⟨?_, ha⟩
  have := Stack.bigEndian_topBytes n 0 S
  simp only [Nat.zero_add] at this
  rw [Stack.popN, hb, ← this]
  rfl

/-- A value of `n` bytes is below `256^n` (R43). -/
theorem Stack.value_lt (S : Stack) (d n : Nat) : S.value d n < 256 ^ n := by
  induction n generalizing d with
  | zero => simp [Stack.value]
  | succ n ih =>
    have h1 := ih (d + 1)
    have h2 := (S.peek d).isLt
    rw [Stack.value, pow_succ]
    omega

/-- A byte of a value is the byte at its depth (R9, R43). -/
theorem Stack.byteOf_value (S : Stack) (d n i : Nat) (h : i < n) : byteOf i (S.value d n) = S.peek (d + i) := by
  induction n generalizing d i with
  | zero => omega
  | succ n ih =>
    apply BitVec.eq_of_toNat_eq
    have hb := (S.peek d).isLt
    cases i with
    | zero => rw [byteOf_toNat, Stack.value]; simp; omega
    | succ i =>
      rw [byteOf_toNat, Stack.value, pow_succ, mul_comm (256 ^ i), ← Nat.div_div_eq_div_mul]
      have : ((S.peek d).toNat + 256 * S.value (d + 1) n) / 256 = S.value (d+1) n := by omega
      rw [this, ← byteOf_toNat, ih (d+1) i (by omega)]
      congr 2; omega

/-- The value on top after a push is the value pushed, reduced to its bytes (R42, R43). -/
theorem Stack.After.value_of_push {S T : Stack} {m b v : Nat} (h : S.After m b v T) (hb : b ≤ 256) :
    T.value 0 b = v % 256 ^ b := by
  have key : ∀ n d, d + n = b → T.value d n = (v / 256 ^ d) % 256 ^ n := by
    intro n
    induction n with
    | zero => intro d _; simp [Stack.value, Nat.mod_one]
    | succ n ih =>
      intro d hd
      rw [Stack.value, ih (d + 1) (by omega)]
      have hp : T.peek d = byteOf d v := by
        rw [Stack.peek, h.2, h.1]
        have : (S.p - BitVec.ofNat 8 m + BitVec.ofNat 8 b - BitVec.ofNat 8 (d + 1) -
            (S.p - BitVec.ofNat 8 m)).toNat = b - 1 - d := by bv_omega
        rw [this, if_pos (by omega)]
        congr 1; omega
      rw [hp, byteOf_toNat, pow_succ 256 d, ← Nat.div_div_eq_div_mul, pow_succ 256 n,
        mul_comm (256 ^ n) 256, Nat.mod_mul]
  simpa using key b 0 (by omega)

/-- Two pushes of values of one width over popped operands. -/
theorem Stack.After.push_push {S T U : Stack} {m b v w : Nat} (h : S.After m b v T)
    (h' : T.After 0 b w U) (hb : 2 * b ≤ 256) :
    U.p = S.p - BitVec.ofNat 8 m + BitVec.ofNat 8 (2 * b) ∧ ∀ i : BitVec 8, U.slot i =
      if (i - (S.p - BitVec.ofNat 8 m)).toNat < b then byteOf (b - 1 - (i - (S.p - BitVec.ofNat 8 m)).toNat) v
      else if (i - (S.p - BitVec.ofNat 8 m)).toNat < 2 * b then
        byteOf (2 * b - 1 - (i - (S.p - BitVec.ofNat 8 m)).toNat) w
      else if (i - (S.p - BitVec.ofNat 8 m)).toNat < m then 0 else S.slot i := by
  obtain ⟨p1, s1⟩ := h
  obtain ⟨p2, s2⟩ := h'
  refine ⟨by rw [p2, p1]; bv_omega, fun i => ?_⟩
  rw [s2 i, s1 i, p1]
  generalize hq : S.p - BitVec.ofNat 8 m = q
  have e : (i - (q + BitVec.ofNat 8 b - BitVec.ofNat 8 0)).toNat =
      if (i - q).toNat < b then (i - q).toNat + 256 - b else (i - q).toNat - b := by
    split <;> bv_omega
  rw [e]
  by_cases h1 : (i - q).toNat < b
  · rw [if_pos h1, if_neg (by omega), if_neg (by omega), if_pos h1, if_pos h1]
  · rw [if_neg h1, if_neg h1, if_neg h1]
    by_cases h2 : (i - q).toNat < 2 * b
    · rw [if_pos (by omega), if_pos h2]; congr 1; omega
    · rw [if_neg (by omega), if_neg h2, if_neg (by omega)]

/-- Pushing bytes, the first deepest, is pushing their big-endian value. -/
theorem Stack.pushBytes_after (bs : List Byte) (S : Stack) (h : bs.length ≤ 256) :
    S.After 0 bs.length (bigEndian bs) (S.pushBytes bs) := by
  have := Stack.pushN_after bs.length (bigEndian bs) S h
  rwa [Stack.pushN, bytesOf_bigEndian] at this

/-- As many top bytes as were asked for. -/
theorem Stack.topBytes_length (S : Stack) (n : Nat) : (S.topBytes n).length = n := by simp [Stack.topBytes]

/-- The first of the top bytes. -/
theorem Stack.topBytes_take (S : Stack) (n j : Nat) (h : j ≤ n) : (S.topBytes n).take j = S.topBytes j := by
  simp only [Stack.topBytes, ← List.map_take]
  rw [List.take_range, Nat.min_eq_left h]

/-- The top bytes are the bytes at the depths below their number. -/
theorem Stack.mem_topBytes (S : Stack) (n : Nat) (b : Byte) : b ∈ S.topBytes n ↔ ∃ j < n, S.peek j = b := by
  simp [Stack.topBytes]

end Sys2Proof.Machine
end

