-- ==== Sys2Proof/Laws/State.lean ====
section
/-! SUPPORT. One lemma per field per update of the state: what the update writes and what it leaves, so that no proof
unfolds a record update. -/

namespace Sys2Proof.Machine

/-! ### setD -/

@[simp] theorem State.setD_pc (s : State) (S : Stack) : (s.setD S).pc = s.pc := rfl
@[simp] theorem State.setD_status (s : State) (S : Stack) : (s.setD S).status = s.status := rfl
@[simp] theorem State.setD_D (s : State) (S : Stack) : (s.setD S).D = S := rfl
@[simp] theorem State.setD_R (s : State) (S : Stack) : (s.setD S).R = s.R := rfl
@[simp] theorem State.setD_ram (s : State) (S : Stack) : (s.setD S).ram = s.ram := rfl
@[simp] theorem State.setD_rom (s : State) (S : Stack) : (s.setD S).rom = s.rom := rfl
@[simp] theorem State.setD_devices (s : State) (S : Stack) : (s.setD S).devices = s.devices := rfl
@[simp] theorem State.setD_W (s : State) (S : Stack) : (s.setD S).W = s.W := rfl
@[simp] theorem State.setD_started (s : State) (S : Stack) : (s.setD S).started = s.started := rfl
@[simp] theorem State.setD_skip (s : State) (S : Stack) : (s.setD S).skip = s.skip := rfl
@[simp] theorem State.setD_diagPort (s : State) (S : Stack) : (s.setD S).diagPort = s.diagPort := rfl
@[simp] theorem State.setD_events (s : State) (S : Stack) : (s.setD S).events = s.events := rfl
@[simp] theorem State.setD_panicCause (s : State) (S : Stack) : (s.setD S).panicCause = s.panicCause := rfl
@[simp] theorem State.setD_deviceReplies (s : State) (S : Stack) : (s.setD S).deviceReplies = s.deviceReplies := rfl
@[simp] theorem State.setD_deviceCalls (s : State) (S : Stack) : (s.setD S).deviceCalls = s.deviceCalls := rfl

/-! ### setR -/

@[simp] theorem State.setR_pc (s : State) (S : Stack) : (s.setR S).pc = s.pc := rfl
@[simp] theorem State.setR_status (s : State) (S : Stack) : (s.setR S).status = s.status := rfl
@[simp] theorem State.setR_D (s : State) (S : Stack) : (s.setR S).D = s.D := rfl
@[simp] theorem State.setR_R (s : State) (S : Stack) : (s.setR S).R = S := rfl
@[simp] theorem State.setR_ram (s : State) (S : Stack) : (s.setR S).ram = s.ram := rfl
@[simp] theorem State.setR_rom (s : State) (S : Stack) : (s.setR S).rom = s.rom := rfl
@[simp] theorem State.setR_devices (s : State) (S : Stack) : (s.setR S).devices = s.devices := rfl
@[simp] theorem State.setR_W (s : State) (S : Stack) : (s.setR S).W = s.W := rfl
@[simp] theorem State.setR_started (s : State) (S : Stack) : (s.setR S).started = s.started := rfl
@[simp] theorem State.setR_skip (s : State) (S : Stack) : (s.setR S).skip = s.skip := rfl
@[simp] theorem State.setR_diagPort (s : State) (S : Stack) : (s.setR S).diagPort = s.diagPort := rfl
@[simp] theorem State.setR_events (s : State) (S : Stack) : (s.setR S).events = s.events := rfl
@[simp] theorem State.setR_panicCause (s : State) (S : Stack) : (s.setR S).panicCause = s.panicCause := rfl
@[simp] theorem State.setR_deviceReplies (s : State) (S : Stack) : (s.setR S).deviceReplies = s.deviceReplies := rfl
@[simp] theorem State.setR_deviceCalls (s : State) (S : Stack) : (s.setR S).deviceCalls = s.deviceCalls := rfl

/-! ### setPc -/

@[simp] theorem State.setPc_pc (s : State) (a : BitVec 33) : (s.setPc a).pc = a := rfl
@[simp] theorem State.setPc_status (s : State) (a : BitVec 33) : (s.setPc a).status = s.status := rfl
@[simp] theorem State.setPc_D (s : State) (a : BitVec 33) : (s.setPc a).D = s.D := rfl
@[simp] theorem State.setPc_R (s : State) (a : BitVec 33) : (s.setPc a).R = s.R := rfl
@[simp] theorem State.setPc_ram (s : State) (a : BitVec 33) : (s.setPc a).ram = s.ram := rfl
@[simp] theorem State.setPc_rom (s : State) (a : BitVec 33) : (s.setPc a).rom = s.rom := rfl
@[simp] theorem State.setPc_devices (s : State) (a : BitVec 33) : (s.setPc a).devices = s.devices := rfl
@[simp] theorem State.setPc_W (s : State) (a : BitVec 33) : (s.setPc a).W = s.W := rfl
@[simp] theorem State.setPc_started (s : State) (a : BitVec 33) : (s.setPc a).started = s.started := rfl
@[simp] theorem State.setPc_skip (s : State) (a : BitVec 33) : (s.setPc a).skip = s.skip := rfl
@[simp] theorem State.setPc_diagPort (s : State) (a : BitVec 33) : (s.setPc a).diagPort = s.diagPort := rfl
@[simp] theorem State.setPc_events (s : State) (a : BitVec 33) : (s.setPc a).events = s.events := rfl
@[simp] theorem State.setPc_panicCause (s : State) (a : BitVec 33) : (s.setPc a).panicCause = s.panicCause := rfl
@[simp] theorem State.setPc_deviceReplies (s : State) (a : BitVec 33) : (s.setPc a).deviceReplies = s.deviceReplies := rfl
@[simp] theorem State.setPc_deviceCalls (s : State) (a : BitVec 33) : (s.setPc a).deviceCalls = s.deviceCalls := rfl

/-! ### setHalted -/

@[simp] theorem State.setHalted_pc (s : State) : (s.setHalted).pc = s.pc := rfl
@[simp] theorem State.setHalted_status (s : State) : (s.setHalted).status = .halted := rfl
@[simp] theorem State.setHalted_D (s : State) : (s.setHalted).D = s.D := rfl
@[simp] theorem State.setHalted_R (s : State) : (s.setHalted).R = s.R := rfl
@[simp] theorem State.setHalted_ram (s : State) : (s.setHalted).ram = s.ram := rfl
@[simp] theorem State.setHalted_rom (s : State) : (s.setHalted).rom = s.rom := rfl
@[simp] theorem State.setHalted_devices (s : State) : (s.setHalted).devices = s.devices := rfl
@[simp] theorem State.setHalted_W (s : State) : (s.setHalted).W = s.W := rfl
@[simp] theorem State.setHalted_started (s : State) : (s.setHalted).started = s.started := rfl
@[simp] theorem State.setHalted_skip (s : State) : (s.setHalted).skip = s.skip := rfl
@[simp] theorem State.setHalted_diagPort (s : State) : (s.setHalted).diagPort = s.diagPort := rfl
@[simp] theorem State.setHalted_events (s : State) : (s.setHalted).events = s.events := rfl
@[simp] theorem State.setHalted_panicCause (s : State) : (s.setHalted).panicCause = s.panicCause := rfl
@[simp] theorem State.setHalted_deviceReplies (s : State) : (s.setHalted).deviceReplies = s.deviceReplies := rfl
@[simp] theorem State.setHalted_deviceCalls (s : State) : (s.setHalted).deviceCalls = s.deviceCalls := rfl

/-! ### setSkip -/

@[simp] theorem State.setSkip_pc (s : State) (l : SkipLatch) : (s.setSkip l).pc = s.pc := rfl
@[simp] theorem State.setSkip_status (s : State) (l : SkipLatch) : (s.setSkip l).status = s.status := rfl
@[simp] theorem State.setSkip_D (s : State) (l : SkipLatch) : (s.setSkip l).D = s.D := rfl
@[simp] theorem State.setSkip_R (s : State) (l : SkipLatch) : (s.setSkip l).R = s.R := rfl
@[simp] theorem State.setSkip_ram (s : State) (l : SkipLatch) : (s.setSkip l).ram = s.ram := rfl
@[simp] theorem State.setSkip_rom (s : State) (l : SkipLatch) : (s.setSkip l).rom = s.rom := rfl
@[simp] theorem State.setSkip_devices (s : State) (l : SkipLatch) : (s.setSkip l).devices = s.devices := rfl
@[simp] theorem State.setSkip_W (s : State) (l : SkipLatch) : (s.setSkip l).W = s.W := rfl
@[simp] theorem State.setSkip_started (s : State) (l : SkipLatch) : (s.setSkip l).started = s.started := rfl
@[simp] theorem State.setSkip_skip (s : State) (l : SkipLatch) : (s.setSkip l).skip = l := rfl
@[simp] theorem State.setSkip_diagPort (s : State) (l : SkipLatch) : (s.setSkip l).diagPort = s.diagPort := rfl
@[simp] theorem State.setSkip_events (s : State) (l : SkipLatch) : (s.setSkip l).events = s.events := rfl
@[simp] theorem State.setSkip_panicCause (s : State) (l : SkipLatch) : (s.setSkip l).panicCause = s.panicCause := rfl
@[simp] theorem State.setSkip_deviceReplies (s : State) (l : SkipLatch) : (s.setSkip l).deviceReplies = s.deviceReplies := rfl
@[simp] theorem State.setSkip_deviceCalls (s : State) (l : SkipLatch) : (s.setSkip l).deviceCalls = s.deviceCalls := rfl

/-! ### emit -/

@[simp] theorem State.emit_pc (s : State) (e : Event) : (s.emit e).pc = s.pc := rfl
@[simp] theorem State.emit_status (s : State) (e : Event) : (s.emit e).status = s.status := rfl
@[simp] theorem State.emit_D (s : State) (e : Event) : (s.emit e).D = s.D := rfl
@[simp] theorem State.emit_R (s : State) (e : Event) : (s.emit e).R = s.R := rfl
@[simp] theorem State.emit_ram (s : State) (e : Event) : (s.emit e).ram = s.ram := rfl
@[simp] theorem State.emit_rom (s : State) (e : Event) : (s.emit e).rom = s.rom := rfl
@[simp] theorem State.emit_devices (s : State) (e : Event) : (s.emit e).devices = s.devices := rfl
@[simp] theorem State.emit_W (s : State) (e : Event) : (s.emit e).W = s.W := rfl
@[simp] theorem State.emit_started (s : State) (e : Event) : (s.emit e).started = s.started := rfl
@[simp] theorem State.emit_skip (s : State) (e : Event) : (s.emit e).skip = s.skip := rfl
@[simp] theorem State.emit_diagPort (s : State) (e : Event) : (s.emit e).diagPort = s.diagPort := rfl
@[simp] theorem State.emit_events (s : State) (e : Event) : (s.emit e).events = s.events ++ [e] := rfl
@[simp] theorem State.emit_panicCause (s : State) (e : Event) : (s.emit e).panicCause = s.panicCause := rfl
@[simp] theorem State.emit_deviceReplies (s : State) (e : Event) : (s.emit e).deviceReplies = s.deviceReplies := rfl
@[simp] theorem State.emit_deviceCalls (s : State) (e : Event) : (s.emit e).deviceCalls = s.deviceCalls := rfl

/-! ### raise -/

@[simp] theorem State.raise_pc (s : State) (c : PanicCause) : (s.raise c).pc = s.pc := rfl
@[simp] theorem State.raise_status (s : State) (c : PanicCause) : (s.raise c).status = .panic := rfl
@[simp] theorem State.raise_D (s : State) (c : PanicCause) : (s.raise c).D = s.D := rfl
@[simp] theorem State.raise_R (s : State) (c : PanicCause) : (s.raise c).R = s.R := rfl
@[simp] theorem State.raise_ram (s : State) (c : PanicCause) : (s.raise c).ram = s.ram := rfl
@[simp] theorem State.raise_rom (s : State) (c : PanicCause) : (s.raise c).rom = s.rom := rfl
@[simp] theorem State.raise_devices (s : State) (c : PanicCause) : (s.raise c).devices = s.devices := rfl
@[simp] theorem State.raise_W (s : State) (c : PanicCause) : (s.raise c).W = s.W := rfl
@[simp] theorem State.raise_started (s : State) (c : PanicCause) : (s.raise c).started = s.started := rfl
@[simp] theorem State.raise_skip (s : State) (c : PanicCause) : (s.raise c).skip = s.skip := rfl
@[simp] theorem State.raise_diagPort (s : State) (c : PanicCause) : (s.raise c).diagPort = s.diagPort := rfl
@[simp] theorem State.raise_events (s : State) (c : PanicCause) : (s.raise c).events = s.events := rfl
@[simp] theorem State.raise_panicCause (s : State) (c : PanicCause) : (s.raise c).panicCause = some c := rfl
@[simp] theorem State.raise_deviceReplies (s : State) (c : PanicCause) : (s.raise c).deviceReplies = s.deviceReplies := rfl
@[simp] theorem State.raise_deviceCalls (s : State) (c : PanicCause) : (s.raise c).deviceCalls = s.deviceCalls := rfl

/-! ### takeReply -/

@[simp] theorem State.takeReply_pc (s : State) : (s.takeReply).pc = s.pc := rfl
@[simp] theorem State.takeReply_status (s : State) : (s.takeReply).status = s.status := rfl
@[simp] theorem State.takeReply_D (s : State) : (s.takeReply).D = s.D := rfl
@[simp] theorem State.takeReply_R (s : State) : (s.takeReply).R = s.R := rfl
@[simp] theorem State.takeReply_ram (s : State) : (s.takeReply).ram = s.ram := rfl
@[simp] theorem State.takeReply_rom (s : State) : (s.takeReply).rom = s.rom := rfl
@[simp] theorem State.takeReply_devices (s : State) : (s.takeReply).devices = s.devices := rfl
@[simp] theorem State.takeReply_W (s : State) : (s.takeReply).W = s.W := rfl
@[simp] theorem State.takeReply_started (s : State) : (s.takeReply).started = s.started := rfl
@[simp] theorem State.takeReply_skip (s : State) : (s.takeReply).skip = s.skip := rfl
@[simp] theorem State.takeReply_diagPort (s : State) : (s.takeReply).diagPort = s.diagPort := rfl
@[simp] theorem State.takeReply_events (s : State) : (s.takeReply).events = s.events := rfl
@[simp] theorem State.takeReply_panicCause (s : State) : (s.takeReply).panicCause = s.panicCause := rfl
@[simp] theorem State.takeReply_deviceReplies (s : State) : (s.takeReply).deviceReplies = s.deviceReplies.tail := rfl
@[simp] theorem State.takeReply_deviceCalls (s : State) : (s.takeReply).deviceCalls = s.deviceCalls + 1 := rfl

/-! ### advance -/

@[simp] theorem State.advance_pc (s : State) : (s.advance).pc = s.pc + 1 := rfl
@[simp] theorem State.advance_status (s : State) : (s.advance).status = s.status := rfl
@[simp] theorem State.advance_D (s : State) : (s.advance).D = s.D := rfl
@[simp] theorem State.advance_R (s : State) : (s.advance).R = s.R := rfl
@[simp] theorem State.advance_ram (s : State) : (s.advance).ram = s.ram := rfl
@[simp] theorem State.advance_rom (s : State) : (s.advance).rom = s.rom := rfl
@[simp] theorem State.advance_devices (s : State) : (s.advance).devices = s.devices := rfl
@[simp] theorem State.advance_W (s : State) : (s.advance).W = s.W := rfl
@[simp] theorem State.advance_started (s : State) : (s.advance).started = s.started := rfl
@[simp] theorem State.advance_skip (s : State) : (s.advance).skip = s.skip := rfl
@[simp] theorem State.advance_diagPort (s : State) : (s.advance).diagPort = s.diagPort := rfl
@[simp] theorem State.advance_events (s : State) : (s.advance).events = s.events := rfl
@[simp] theorem State.advance_panicCause (s : State) : (s.advance).panicCause = s.panicCause := rfl
@[simp] theorem State.advance_deviceReplies (s : State) : (s.advance).deviceReplies = s.deviceReplies := rfl
@[simp] theorem State.advance_deviceCalls (s : State) : (s.advance).deviceCalls = s.deviceCalls := rfl

/-! ### ramWriteByte and ramWriteCells -/

@[simp] theorem ramWriteByte_pc (a : Nat) (b : Byte) (s : State) : (ramWriteByte a b s).pc = s.pc := rfl
@[simp] theorem ramWriteByte_status (a : Nat) (b : Byte) (s : State) : (ramWriteByte a b s).status = s.status := rfl
@[simp] theorem ramWriteByte_D (a : Nat) (b : Byte) (s : State) : (ramWriteByte a b s).D = s.D := rfl
@[simp] theorem ramWriteByte_R (a : Nat) (b : Byte) (s : State) : (ramWriteByte a b s).R = s.R := rfl
@[simp] theorem ramWriteByte_ram (a : Nat) (b : Byte) (s : State) : (ramWriteByte a b s).ram = s.ram.write a b := rfl
@[simp] theorem ramWriteByte_rom (a : Nat) (b : Byte) (s : State) : (ramWriteByte a b s).rom = s.rom := rfl
@[simp] theorem ramWriteByte_devices (a : Nat) (b : Byte) (s : State) : (ramWriteByte a b s).devices = s.devices := rfl
@[simp] theorem ramWriteByte_W (a : Nat) (b : Byte) (s : State) : (ramWriteByte a b s).W = s.W := rfl
@[simp] theorem ramWriteByte_started (a : Nat) (b : Byte) (s : State) : (ramWriteByte a b s).started = s.started := rfl
@[simp] theorem ramWriteByte_skip (a : Nat) (b : Byte) (s : State) : (ramWriteByte a b s).skip = s.skip := rfl
@[simp] theorem ramWriteByte_diagPort (a : Nat) (b : Byte) (s : State) : (ramWriteByte a b s).diagPort = s.diagPort := rfl
@[simp] theorem ramWriteByte_events (a : Nat) (b : Byte) (s : State) : (ramWriteByte a b s).events = s.events ++ [.ramWrite a b] := rfl
@[simp] theorem ramWriteByte_panicCause (a : Nat) (b : Byte) (s : State) : (ramWriteByte a b s).panicCause = s.panicCause := rfl
@[simp] theorem ramWriteByte_deviceReplies (a : Nat) (b : Byte) (s : State) : (ramWriteByte a b s).deviceReplies = s.deviceReplies := rfl
@[simp] theorem ramWriteByte_deviceCalls (a : Nat) (b : Byte) (s : State) : (ramWriteByte a b s).deviceCalls = s.deviceCalls := rfl

@[simp] theorem ramWriteCells_pc (cs : List Host.Cell) (s : State) : (ramWriteCells cs s).pc = s.pc := by
  induction cs generalizing s with
  | nil => rfl
  | cons c cs ih => simp [ramWriteCells, ih]
@[simp] theorem ramWriteCells_status (cs : List Host.Cell) (s : State) : (ramWriteCells cs s).status = s.status := by
  induction cs generalizing s with
  | nil => rfl
  | cons c cs ih => simp [ramWriteCells, ih]
@[simp] theorem ramWriteCells_D (cs : List Host.Cell) (s : State) : (ramWriteCells cs s).D = s.D := by
  induction cs generalizing s with
  | nil => rfl
  | cons c cs ih => simp [ramWriteCells, ih]
@[simp] theorem ramWriteCells_R (cs : List Host.Cell) (s : State) : (ramWriteCells cs s).R = s.R := by
  induction cs generalizing s with
  | nil => rfl
  | cons c cs ih => simp [ramWriteCells, ih]
@[simp] theorem ramWriteCells_rom (cs : List Host.Cell) (s : State) : (ramWriteCells cs s).rom = s.rom := by
  induction cs generalizing s with
  | nil => rfl
  | cons c cs ih => simp [ramWriteCells, ih]
@[simp] theorem ramWriteCells_devices (cs : List Host.Cell) (s : State) : (ramWriteCells cs s).devices = s.devices := by
  induction cs generalizing s with
  | nil => rfl
  | cons c cs ih => simp [ramWriteCells, ih]
@[simp] theorem ramWriteCells_W (cs : List Host.Cell) (s : State) : (ramWriteCells cs s).W = s.W := by
  induction cs generalizing s with
  | nil => rfl
  | cons c cs ih => simp [ramWriteCells, ih]
@[simp] theorem ramWriteCells_started (cs : List Host.Cell) (s : State) : (ramWriteCells cs s).started = s.started := by
  induction cs generalizing s with
  | nil => rfl
  | cons c cs ih => simp [ramWriteCells, ih]
@[simp] theorem ramWriteCells_skip (cs : List Host.Cell) (s : State) : (ramWriteCells cs s).skip = s.skip := by
  induction cs generalizing s with
  | nil => rfl
  | cons c cs ih => simp [ramWriteCells, ih]
@[simp] theorem ramWriteCells_diagPort (cs : List Host.Cell) (s : State) : (ramWriteCells cs s).diagPort = s.diagPort := by
  induction cs generalizing s with
  | nil => rfl
  | cons c cs ih => simp [ramWriteCells, ih]
@[simp] theorem ramWriteCells_panicCause (cs : List Host.Cell) (s : State) : (ramWriteCells cs s).panicCause = s.panicCause := by
  induction cs generalizing s with
  | nil => rfl
  | cons c cs ih => simp [ramWriteCells, ih]
@[simp] theorem ramWriteCells_deviceReplies (cs : List Host.Cell) (s : State) : (ramWriteCells cs s).deviceReplies = s.deviceReplies := by
  induction cs generalizing s with
  | nil => rfl
  | cons c cs ih => simp [ramWriteCells, ih]
@[simp] theorem ramWriteCells_deviceCalls (cs : List Host.Cell) (s : State) : (ramWriteCells cs s).deviceCalls = s.deviceCalls := by
  induction cs generalizing s with
  | nil => rfl
  | cons c cs ih => simp [ramWriteCells, ih]

/-- The memory after writes in order. -/
@[simp] theorem ramWriteCells_ram (cs : List Host.Cell) (s : State) :
    (ramWriteCells cs s).ram = Memory.writeCells cs s.ram := by
  induction cs generalizing s with
  | nil => rfl
  | cons c cs ih => simp [ramWriteCells, Memory.writeCells, ih]

/-- Each write is an event, in order. -/
@[simp] theorem ramWriteCells_events (cs : List Host.Cell) (s : State) :
    (ramWriteCells cs s).events = s.events ++ cs.map fun c => .ramWrite c.1 c.2 := by
  induction cs generalizing s with
  | nil => simp [ramWriteCells]
  | cons c cs ih => simp [ramWriteCells, ih]

end Sys2Proof.Machine
end

