-- ==== Sys2Proof/Laws/Exec.lean ====
section
/-! SUPPORT. What each shared operation of the meanings does, said once: the condition byte, the operands, the RAM
accesses, a device call and the dispatch of selectors. -/

namespace Sys2Proof.Machine

open Sys2Proof

/-! ### The condition byte -/

theorem latchCondition_false (s : State) :
    latchCondition false s = { s with skip := { flag := false, exec := true } } := rfl

theorem latchCondition_true (s : State) :
    latchCondition true s =
      { s with D := s.D.pop.2, skip := { flag := true, exec := s.D.peek 0 != 0 } } := rfl

/-- An instruction without the skip bit performs its effect (R156). -/
theorem predicated_false (effect suppressed : State → Result) (s : State) :
    predicated false effect suppressed s = effect { s with skip := { flag := false, exec := true } } := rfl

/-- A nonzero condition byte: the effect, on the stack below it (R155, R156). -/
theorem predicated_taken (effect suppressed : State → Result) (s : State) (h : s.D.peek 0 ≠ 0) :
    predicated true effect suppressed s =
      effect { s with D := s.D.pop.2, skip := { flag := true, exec := true } } := by
  have e : (s.D.peek 0 != 0) = true := by simpa using h
  rw [predicated, latchCondition_true, e]
  rfl

/-- A zero condition byte: suppressed, with the condition byte popped (R155, R156). -/
theorem predicated_suppressed (effect suppressed : State → Result) (s : State) (h : s.D.peek 0 = 0) :
    predicated true effect suppressed s =
      suppressed { s with D := s.D.pop.2, skip := { flag := true, exec := false } } := by
  have e : (s.D.peek 0 != 0) = false := by simp [h]
  rw [predicated, latchCondition_true, e]
  rfl

/-! ### Operands -/

/-- One operand: its value, and the stack below it. -/
theorem withOperand_spec (n : Nat) (f : Nat → State → State) (s : State) (h : n ≤ 256) :
    ∃ D₁, s.D.After n 0 0 D₁ ∧ withOperand n f s = f (s.D.value 0 n) (s.setD D₁) := by
  obtain ⟨hv, ha⟩ := Stack.popN_spec n s.D h
  exact ⟨_, ha, by rw [withOperand, hv]⟩

/-- Two operands of `n` bytes: `b` on top, `a` below it, and the stack below both (R126). -/
theorem withTwoOperands_spec (n : Nat) (f : Nat → Nat → State → State) (s : State) (h : 2 * n ≤ 256) :
    ∃ D₁, s.D.After (2 * n) 0 0 D₁ ∧
      withTwoOperands n f s = f (s.D.value n n) (s.D.value 0 n) (s.setD D₁) := by
  obtain ⟨hb, h1⟩ := Stack.popN_spec n s.D (by omega)
  obtain ⟨ha, h2⟩ := Stack.popN_spec n (s.D.popN n).2 (by omega)
  refine ⟨_, ?_, by rw [withTwoOperands, hb, ha, h1.value 0 n (by omega)]; rfl⟩
  have := h1.pops h2
  rwa [← two_mul] at this

/-- A result pushed over popped operands. -/
theorem pushResult_spec (m n v : Nat) (s : State) (D₁ : Stack) (h : n ≤ 256) (h1 : s.D.After m 0 0 D₁) :
    ∃ D', s.D.After m n v D' ∧ pushResult n v (s.setD D₁) = s.setD D' :=
  ⟨_, h1.push (Stack.pushN_after n v D₁ h), rfl⟩

/-! ### RAM -/

/-- A load in range pushes the big-endian value; one that leaves RAM panics (R84, R87). -/
theorem loadFrom_eq (a n : Nat) (s : State) :
    loadFrom a n s =
      if a + n ≤ addressSpace s.W then pushResult n (s.ram.valueAt a n) s else s.raise .ramOutOfRange := by
  rw [loadFrom, memRead, Memory.bigEndian_bytes]
  split <;> rename_i h <;> split at h <;> simp_all

/-- A store in range writes its bytes, with their events; one that leaves RAM panics (R84, R87, R88). -/
theorem storeAt_eq (a n v : Nat) (s : State) :
    storeAt a n v s =
      if a + n ≤ addressSpace s.W then { s with
        ram := Memory.writeCells (cellsFrom a (bytesOf n v)) s.ram
        events := s.events ++ storeEvents a n v }
      else s.raise .ramOutOfRange := by
  have frame : ∀ (cs : List Host.Cell) (s : State), ramWriteCells cs s = { s with
      ram := Memory.writeCells cs s.ram
      events := s.events ++ cs.map fun c => .ramWrite c.1 c.2 } := by
    intro cs
    induction cs with
    | nil => intro s; simp [ramWriteCells, Memory.writeCells]
    | cons c cs ih => intro s; rw [ramWriteCells, ih]; simp [Memory.writeCells, ramWriteByte]
  have ev : ∀ (n a : Nat), (cellsFrom a (bytesOf n v)).map (fun c => Event.ramWrite c.1 c.2) = storeEvents a n v := by
    intro n
    induction n with
    | zero => intro a; rfl
    | succ n ih =>
      intro a
      simp only [bytesOf, cellsFrom, List.map_cons, ih, storeEvents, List.range_succ_eq_map, List.map_map]
      congr 1
      apply List.map_congr_left
      intro j _
      have e1 : a + 1 + j = a + j.succ := by omega
      have e2 : n - 1 - j = n + 1 - 1 - j.succ := by omega
      simp only [Function.comp, e1, e2]
  rw [storeAt, memWrite, frame, ev]
  split <;> rename_i h <;> split at h <;> simp_all

/-- A popped address is below `M` (R219). -/
theorem value_lt_addressSpace (S : Stack) (d : Nat) (W : Width) : S.value d W.bytes < addressSpace W := by
  rw [addressSpace, two_pow_eight_mul]
  exact Stack.value_lt S d W.bytes

/-- `M` is at most `2^32`. -/
theorem addressSpace_le (W : Width) : addressSpace W ≤ 2 ^ 32 := by cases W <;> decide

end Sys2Proof.Machine
end

