-- ==== Sys2Proof/Laws/Device.lean ====
section
/-! SUPPORT. What the dispatch of device selectors does, said once in each direction: what follows from the answers,
and what a next state tells about them. -/

namespace Sys2Proof.Machine

open Sys2Proof

/-- RAM byte writes in order: the bytes and the events, and nothing else. -/
theorem ramWriteCells_eq (cs : List Host.Cell) (s : State) :
    ramWriteCells cs s = { s with
      ram := Memory.writeCells cs s.ram
      events := s.events ++ cs.map fun c => .ramWrite c.1 c.2 } := by
  induction cs generalizing s with
  | nil => simp [ramWriteCells, Memory.writeCells]
  | cons c cs ih => rw [ramWriteCells, ih]; simp [Memory.writeCells, ramWriteByte]

/-- The state after calls that returned: the answers `replies` to the first of the selectors `sels`. -/
def afterCalls (sels : List Byte) (replies : List (List Host.Cell × Byte)) (s : State) : State :=
  { s with
    D := s.D.pushBytes (replies.map (·.2))
    ram := Memory.writeCells (replies.flatMap (·.1)) s.ram
    events := s.events ++ (List.zipWith (callEvents s.devices) sels replies).flatten
    deviceReplies := s.deviceReplies.drop replies.length
    deviceCalls := s.deviceCalls + replies.length }

@[simp] theorem afterCalls_nil (sels : List Byte) (s : State) : afterCalls sels [] s = s := by
  simp [afterCalls, Stack.pushBytes, Memory.writeCells]

theorem Memory.writeCells_append (cs ds : List Host.Cell) (m : Memory) :
    Memory.writeCells (cs ++ ds) m = Memory.writeCells ds (Memory.writeCells cs m) := by
  induction cs generalizing m with
  | nil => rfl
  | cons c cs ih => simp [Memory.writeCells, ih]

/-- One returned call and then more. -/
theorem afterCalls_cons (sel : Byte) (sels : List Byte) (r : List Host.Cell × Byte)
    (replies : List (List Host.Cell × Byte)) (s : State) (i : Fin 16) (e : DeviceEntry)
    (h : findDevice s.devices sel = some (i, e)) :
    afterCalls (sel :: sels) (r :: replies) s = afterCalls sels replies (deviceReturns i sel r.1 r.2 s) := by
  simp only [afterCalls, deviceReturns, ramWriteCells_eq, State.takeReply, State.emit, State.setD, callEvents, h,
    List.map_cons, List.flatMap_cons, List.zipWith_cons_cons, List.flatten_cons, List.length_cons,
    Memory.writeCells_append, List.drop_tail, Stack.pushBytes, List.append_assoc]
  congr 1
  omega

/-- Calls that are answered within the contract go through, one after the other (R264). -/
theorem callDevices_returning (replies : List (List Host.Cell × Byte)) (sels : List Byte) (s : State)
    (rest : List DeviceReply) (hlen : replies.length ≤ sels.length)
    (hr : s.deviceReplies = returning replies ++ rest)
    (hw : ∀ r ∈ replies, ∀ c ∈ r.1, c.1 < addressSpace s.W)
    (hf : ∀ sel ∈ sels.take replies.length, (findDevice s.devices sel).isSome = true) :
    callDevices sels s = callDevices (sels.drop replies.length) (afterCalls sels replies s) := by
  induction replies generalizing sels s with
  | nil => simp
  | cons r replies ih =>
    cases sels with
    | nil => simp at hlen
    | cons sel sels =>
      simp only [List.length_cons, Nat.add_le_add_iff_right, List.take_succ_cons, List.mem_cons,
        forall_eq_or_imp] at hlen hf
      obtain ⟨⟨i, e⟩, hfi⟩ := Option.isSome_iff_exists.1 hf.1
      have hreply : nextReply e.dev sel s = .returns r.1 r.2 := by rw [nextReply, hr]; rfl
      have hin : writesInRam s.W r.1 = true := by
        simp only [writesInRam, List.all_eq_true, decide_eq_true_eq]
        exact hw r (by simp)
      have hd : (deviceReturns i sel r.1 r.2 s).devices = s.devices := by simp [deviceReturns]
      have hW : (deviceReturns i sel r.1 r.2 s).W = s.W := by simp [deviceReturns]
      rw [callDevices, hfi]
      simp only [hreply, hin, if_true]
      rw [ih sels _ hlen, List.length_cons, List.drop_succ_cons, afterCalls_cons sel sels r replies s i e hfi]
      · simp [deviceReturns, hr, returning]
      · rw [hW]; exact fun q hq => hw q (by simp [hq])
      · rw [hd]; exact hf.2

/-- A next state of the dispatch: some calls were answered within the contract, and either these are all, or the
next selector is unmatched and the fault is taken (R264, R301). -/
theorem callDevices_next {sels : List Byte} {s t : State} (h : callDevices sels s = .next t) :
    ∃ replies : List (List Host.Cell × Byte), replies.length ≤ sels.length ∧
      (∀ r ∈ replies, ∀ c ∈ r.1, c.1 < addressSpace s.W) ∧
      (∀ sel ∈ sels.take replies.length, (findDevice s.devices sel).isSome = true) ∧
      ((replies.length = sels.length ∧ t = afterCalls sels replies s) ∨
       (∃ sel ∈ (sels.drop replies.length).head?, findDevice s.devices sel = none ∧
          t = (afterCalls sels replies s).raise .unregisteredDevice)) := by
  induction sels generalizing s with
  | nil =>
    simp only [callDevices, Host.Outcome.next.injEq] at h
    exact ⟨[], by simp, by simp, by simp, .inl ⟨rfl, by simp [h]⟩⟩
  | cons sel sels ih =>
    rw [callDevices] at h
    split at h
    · rename_i hn
      simp only [Host.Outcome.next.injEq] at h
      exact ⟨[], by simp, by simp, by simp, .inr ⟨sel, by simp, hn, by simp [h]⟩⟩
    · rename_i i e hs
      split at h
      · cases h
      · cases h
      · rename_i writes r _
        split at h
        case isFalse => cases h
        case isTrue hin =>
        have hd : (deviceReturns i sel writes r s).devices = s.devices := by simp [deviceReturns]
        have hW : (deviceReturns i sel writes r s).W = s.W := by simp [deviceReturns]
        obtain ⟨replies, h1, h2, h3, h4⟩ := ih h
        rw [hd] at h3 h4
        rw [hW] at h2
        have hc := afterCalls_cons sel sels (writes, r) replies s i e hs
        simp only at hc
        refine ⟨(writes, r) :: replies, by simpa using h1, ?_, ?_, ?_⟩
        · simp only [writesInRam, List.all_eq_true, decide_eq_true_eq] at hin
          simp only [List.mem_cons, forall_eq_or_imp]
          exact ⟨hin, h2⟩
        · simp only [List.length_cons, List.take_succ_cons, List.mem_cons, forall_eq_or_imp]
          exact ⟨by simp [hs], h3⟩
        · rw [hc]
          simpa using h4

/-- `nextAnswer` for selectors already popped: the answer to the next call of the dispatch of `sels` in `s`. -/
def pendingAnswer (s : State) (sels : List Byte) (before : List (List Host.Cell × Byte)) : Option DeviceReply :=
  match sels[before.length]? with
  | none => none
  | some sel =>
    (findDevice s.devices sel).map fun found =>
      s.deviceReplies.getD before.length
        (Config.deviceReply found.2.dev (s.deviceCalls + before.length) sel
          (Memory.writeCells (before.flatMap (·.1)) s.ram))

/-- `AnsweredBy` for selectors already popped. -/
def DispatchAnsweredBy (s : State) (sels : List Byte) (before : List (List Host.Cell × Byte)) : Prop :=
  ∀ earlier reply later, before = earlier ++ reply :: later →
      pendingAnswer s sels earlier = some (.returns reply.1 reply.2) ∧ ∀ c ∈ reply.1, c.1 < addressSpace s.W

/-- The first answer. -/
theorem pendingAnswer_nil (s : State) (sel : Byte) (sels : List Byte) :
    pendingAnswer s (sel :: sels) [] =
      (findDevice s.devices sel).map fun f => nextReply f.2.dev sel s := by
  simp only [pendingAnswer, List.length_nil, List.getElem?_cons_zero]
  congr 1; funext f
  cases h : s.deviceReplies <;> simp [nextReply, h, Memory.writeCells]

/-- An answer after one returned call is the answer in the state that call leaves. -/
theorem pendingAnswer_cons (s : State) (sel : Byte) (sels : List Byte) (i : Fin 16)
    (r : List Host.Cell × Byte) (b : List (List Host.Cell × Byte)) :
    pendingAnswer s (sel :: sels) (r :: b) = pendingAnswer (deviceReturns i sel r.1 r.2 s) sels b := by
  simp only [pendingAnswer, List.length_cons, List.getElem?_cons_succ]
  cases sels[b.length]? with
  | none => rfl
  | some q =>
    simp only [deviceReturns, State.setD, State.emit, ramWriteCells_eq, State.takeReply,
      List.flatMap_cons, Memory.writeCells_append]
    congr 1; funext f
    have e : s.deviceCalls + (b.length + 1) = s.deviceCalls + 1 + b.length := by omega
    rw [e]
    cases s.deviceReplies <;> simp

/-- The dispatch answers a next state exactly where every call it makes is answered within the contract (R264, R268). -/
theorem callDevices_next_iff (sels : List Byte) (s : State) :
    (∃ t, callDevices sels s = .next t) ↔
      ∀ before answer, before.length < sels.length → DispatchAnsweredBy s sels before →
        pendingAnswer s sels before = some answer → WithinContract s.W answer := by
  induction sels generalizing s with
  | nil => simp [callDevices]
  | cons sel sels ih =>
    rw [callDevices]
    cases hf : findDevice s.devices sel with
    | none =>
      simp only [Host.Outcome.next.injEq, exists_eq', true_iff]
      intro before answer _ ha hn
      cases before with
      | nil => rw [pendingAnswer_nil, hf] at hn; cases hn
      | cons r b => have := (ha [] r b rfl).1; rw [pendingAnswer_nil, hf] at this; cases this
    | some f =>
      obtain ⟨i, e⟩ := f
      have h0 : pendingAnswer s (sel :: sels) [] = some (nextReply e.dev sel s) := by rw [pendingAnswer_nil, hf]; rfl
      have nilA : DispatchAnsweredBy s (sel :: sels) [] := by intro a b c h; simp at h
      simp only
      have bad : ∀ a, nextReply e.dev sel s = a → ¬ WithinContract s.W a →
          ¬ ∀ before answer, before.length < (sel :: sels).length → DispatchAnsweredBy s (sel :: sels) before →
            pendingAnswer s (sel :: sels) before = some answer → WithinContract s.W answer := by
        intro a ha hb h
        exact hb (h [] a (by simp) nilA (by rw [h0, ha]))
      cases hr : nextReply e.dev sel s with
      | hangs =>
        simp only [reduceCtorEq, exists_false, false_iff]
        exact bad _ hr (by rintro ⟨_, _, h, _⟩; cases h)
      | breaksContract =>
        simp only [reduceCtorEq, exists_false, false_iff]
        exact bad _ hr (by rintro ⟨_, _, h, _⟩; cases h)
      | returns ws b =>
        simp only
        by_cases hin : writesInRam s.W ws = true
        · have hin' : ∀ c ∈ ws, c.1 < addressSpace s.W := by simpa [writesInRam] using hin
          rw [if_pos hin, ih]
          have hW : (deviceReturns i sel ws b s).W = s.W := by simp [deviceReturns]
          rw [hW]
          constructor
          · intro h before answer hl ha hn
            cases before with
            | nil => rw [h0, hr] at hn; cases hn; exact ⟨_, _, rfl, hin'⟩
            | cons r bs =>
              have hr0 := (ha [] r bs rfl).1
              rw [h0, hr] at hr0
              simp only [Option.some.injEq, DeviceReply.returns.injEq] at hr0
              obtain ⟨rfl, rfl⟩ := hr0
              rw [pendingAnswer_cons s sel sels i] at hn
              refine h bs answer (by simpa using hl) ?_ hn
              intro ea re la hh
              have := ha (r :: ea) re la (by rw [hh]; rfl)
              rwa [pendingAnswer_cons s sel sels i, ← hW] at this
          · intro h bs answer hl ha hn
            refine h ((ws, b) :: bs) answer (by simpa using hl) ?_ (by rw [pendingAnswer_cons s sel sels i]; exact hn)
            intro ea re la hh
            cases ea with
            | nil =>
              simp only [List.nil_append, List.cons.injEq] at hh
              rw [h0, hr, ← hh.1]
              exact ⟨rfl, hin'⟩
            | cons x ea =>
              simp only [List.cons_append, List.cons.injEq] at hh
              rw [← hh.1, pendingAnswer_cons s sel sels i, ← hW]
              exact ha ea re la hh.2
        · rw [if_neg hin]
          simp only [reduceCtorEq, exists_false, false_iff]
          refine bad _ hr ?_
          rintro ⟨ws', b', h, hh⟩
          cases h
          exact hin (by simpa [writesInRam] using hh)

/-- What the scan finds is valid and holds the selector (R262). -/
theorem findDevice_some {T : DeviceTable} {sel : Byte} {i : Fin 16} {e : DeviceEntry}
    (h : findDevice T sel = some (i, e)) : T[i] = some e ∧ e.sel = sel := by
  obtain ⟨j, _, hj⟩ := List.exists_of_findSome?_eq_some h
  split at hj
  · split at hj
    · simp only [Option.some.injEq, Prod.mk.injEq] at hj
      obtain ⟨rfl, rfl⟩ := hj
      exact ⟨‹_›, ‹_›⟩
    · cases hj
  · cases hj

/-- The scan finds nothing exactly when no valid entry holds the selector (R262). -/
theorem findDevice_eq_none (T : DeviceTable) (sel : Byte) :
    findDevice T sel = none ↔ ∀ (i : Fin 16) (e : DeviceEntry), T[i] = some e → e.sel ≠ sel := by
  rw [findDevice, List.findSome?_eq_none_iff]
  constructor
  · intro h i e hi hs
    have := h i (List.mem_finRange i)
    rw [hi] at this
    simp [hs] at this
  · intro h i _
    split
    · rename_i e he
      rw [if_neg (h i e he)]
    · rfl

/-- The entry a registration takes is invalid (R261). -/
theorem freeEntry_some {T : DeviceTable} {p i : Fin 16} (h : freeEntry T p = some i) : T[i] = none := by
  have := List.find?_some h
  simpa using this

/-- No entry can be taken exactly when all are valid (R261). -/
theorem freeEntry_eq_none (T : DeviceTable) (p : Fin 16) : freeEntry T p = none ↔ ∀ i : Fin 16, T[i] ≠ none := by
  rw [freeEntry, List.find?_eq_none]
  constructor
  · intro h i hi
    refine h i (List.mem_map.2 ⟨i - p, List.mem_finRange _, by simp⟩) ?_
    rw [hi]; rfl
  · intro h i _ hn
    exact h i (by simpa using hn)

/-- Reading the table after one entry has been written. -/
theorem DeviceTable.getElem_set (T : DeviceTable) (i j : Fin 16) (x : Option DeviceEntry) :
    (T.set i x)[j] = if i = j then x else T[j] := by
  simp only [Fin.getElem_fin, Vector.getElem_set, Fin.ext_iff]

/-- The events of calls that returned record the devices' RAM writes (R86, R266). -/
theorem callEvents_replay (T : DeviceTable) (sels : List Byte) (replies : List (List Host.Cell × Byte)) (m : Memory)
    (h1 : replies.length ≤ sels.length)
    (h : ∀ sel ∈ sels.take replies.length, (findDevice T sel).isSome = true) :
    replay (List.zipWith (callEvents T) sels replies).flatten m = Memory.writeCells (replies.flatMap (·.1)) m := by
  induction replies generalizing sels m with
  | nil => simp [replay, Memory.writeCells]
  | cons r rs ih =>
    cases sels with
    | nil => simp at h1
    | cons sel sels =>
      simp only [List.length_cons, Nat.add_le_add_iff_right, List.take_succ_cons, List.mem_cons,
        forall_eq_or_imp] at h1 h
      obtain ⟨f, hf⟩ := Option.isSome_iff_exists.1 h.1
      rw [List.zipWith_cons_cons, List.flatten_cons, replay_append, ih _ _ h1 h.2, List.flatMap_cons,
        Memory.writeCells_append]
      simp only [callEvents, hf, replay_append, replay_ramWrites, replay]

/-- The recorded writes of calls within the contract are below `M` (R266). -/
theorem callEvents_mem (T : DeviceTable) (sels : List Byte) (replies : List (List Host.Cell × Byte)) (M : Nat)
    (h : ∀ r ∈ replies, ∀ c ∈ r.1, c.1 < M) :
    ∀ a b, Event.ramWrite a b ∈ (List.zipWith (callEvents T) sels replies).flatten → a < M := by
  induction replies generalizing sels with
  | nil => simp
  | cons r rs ih =>
    cases sels with
    | nil => simp
    | cons sel sels =>
      intro a b hm
      rw [List.zipWith_cons_cons, List.flatten_cons, List.mem_append] at hm
      rcases hm with hm | hm
      · simp only [callEvents] at hm
        split at hm
        · simp only [List.mem_append, List.mem_map, List.mem_singleton, reduceCtorEq, or_false] at hm
          obtain ⟨c, hc, he⟩ := hm
          simp only [Event.ramWrite.injEq] at he
          have := h r (by simp) c hc
          omega
        · simp at hm
      · exact ih sels (fun q hq => h q (by simp [hq])) a b hm

end Sys2Proof.Machine
end

