-- ==== Sys2Proof/Laws/PerInstr.lean ====
section
/-! SUPPORT. The per-instruction family `Length`: how many bytes an instruction takes, and that its first byte alone
tells it (spec/30_encoding.md R123). -/

namespace Sys2Proof.Laws

/-- R123: an instruction has one byte, a literal `w` more, at most five in all; and the first byte of its encoding
announces exactly the immediate bytes that follow it. -/
def Length.Statement (i : Instr) : Prop :=
  (encode i).length = (match i with | .lit _ w _ => 1 + w.bytes | _ => 1) ∧ (encode i).length ≤ 5 ∧
  ∃ ib rest, encode i = ib :: rest ∧ rest.length = immLength ib

theorem Length.add (skip : Bool) (w : Width) : Length.Statement (.add skip w) :=
  ⟨rfl, by simp [encode], _, _, rfl, by cases skip <;> cases w <;> rfl⟩

theorem Length.and (skip : Bool) (w : Width) : Length.Statement (.and skip w) :=
  ⟨rfl, by simp [encode], _, _, rfl, by cases skip <;> cases w <;> rfl⟩

theorem Length.xor (skip : Bool) (w : Width) : Length.Statement (.xor skip w) :=
  ⟨rfl, by simp [encode], _, _, rfl, by cases skip <;> cases w <;> rfl⟩

theorem Length.shift (skip : Bool) (w : Width) : Length.Statement (.shift skip w) :=
  ⟨rfl, by simp [encode], _, _, rfl, by cases skip <;> cases w <;> rfl⟩

theorem Length.swap (skip : Bool) (w : Width) : Length.Statement (.swap skip w) :=
  ⟨rfl, by simp [encode], _, _, rfl, by cases skip <;> cases w <;> rfl⟩

theorem Length.cmp (skip : Bool) (w : Width) : Length.Statement (.cmp skip w) :=
  ⟨rfl, by simp [encode], _, _, rfl, by cases skip <;> cases w <;> rfl⟩

theorem Length.store (skip : Bool) (w : Width) : Length.Statement (.store skip w) :=
  ⟨rfl, by simp [encode], _, _, rfl, by cases skip <;> cases w <;> rfl⟩

theorem Length.load (skip : Bool) (w : Width) : Length.Statement (.load skip w) :=
  ⟨rfl, by simp [encode], _, _, rfl, by cases skip <;> cases w <;> rfl⟩

theorem Length.dup (skip : Bool) (w : Width) : Length.Statement (.dup skip w) :=
  ⟨rfl, by simp [encode], _, _, rfl, by cases skip <;> cases w <;> rfl⟩

theorem Length.drop (skip : Bool) (w : Width) : Length.Statement (.drop skip w) :=
  ⟨rfl, by simp [encode], _, _, rfl, by cases skip <;> cases w <;> rfl⟩

theorem Length.tor (skip : Bool) (w : Width) : Length.Statement (.tor skip w) :=
  ⟨rfl, by simp [encode], _, _, rfl, by cases skip <;> cases w <;> rfl⟩

theorem Length.fromr (skip : Bool) (w : Width) : Length.Statement (.fromr skip w) :=
  ⟨rfl, by simp [encode], _, _, rfl, by cases skip <;> cases w <;> rfl⟩

theorem Length.jump (skip : Bool) (w : Width) : Length.Statement (.jump skip w) :=
  ⟨rfl, by simp [encode], _, _, rfl, by cases skip <;> cases w <;> rfl⟩

theorem Length.dev (skip : Bool) (w : Width) : Length.Statement (.dev skip w) :=
  ⟨rfl, by simp [encode], _, _, rfl, by cases skip <;> cases w <;> rfl⟩

theorem Length.lit (skip : Bool) (w : Width) (imm : BitVec 32) : Length.Statement (.lit skip w imm) := by
  refine ⟨?_, ?_, _, _, rfl, ?_⟩
  · cases w <;> rfl
  · cases w <;> simp [encode, bytesOf, Width.bytes]
  · cases skip <;> cases w <;> rfl

theorem Length.diag (skip : Bool) (item : DiagItem) : Length.Statement (.diag skip item) :=
  ⟨rfl, by simp [encode], _, _, rfl, by cases skip <;> cases item <;> rfl⟩

theorem Length.halt (ignored : BitVec 7) : Length.Statement (.halt ignored) :=
  ⟨rfl, by simp [encode], _, _, rfl, by revert ignored; decide⟩

end Sys2Proof.Laws
end

