-- ==== Sys2Proof/Laws/Step.lean ====
section
/-! SUPPORT. The tick by cases, and what executing an instruction can change at all, said once. -/

namespace Sys2Proof.Machine

open Sys2Proof

/-! ### The tick -/

/-- The instruction at `pc`, where the fetch is inside ROM (R151). -/
def fetched (s : State) : Instr :=
  decodeByte (s.rom.read s.pc.toNat)
    (bigEndian (s.rom.bytes (s.pc.toNat + 1) (immLength (s.rom.read s.pc.toNat))))

/-- The tick of a Running block (R151, R152, R159). -/
theorem step_running (s : State) (h : s.status = .running) :
    step s = match fetchInstr s with | none => .next (s.raise .romOutOfRange) | some i => exec i s.advance := by
  rw [step]
  split
  · simp_all
  · simp_all
  · rfl

/-- The fetch inside ROM. -/
theorem fetchInstr_in (s : State) (h : s.pc.toNat < addressSpace s.W) :
    fetchInstr s = some (fetched s) := by
  simp [fetchInstr, fetched, romRead, h]

/-- The fetch outside ROM gives no instruction (R151). -/
theorem fetchInstr_out (s : State) (h : addressSpace s.W ≤ s.pc.toNat) : fetchInstr s = none := by
  simp [fetchInstr, romRead, Nat.not_lt.2 h]

/-- The tick where the fetch is inside ROM. -/
theorem step_in (s : State) (h : s.status = .running) (hp : s.pc.toNat < addressSpace s.W) :
    step s = exec (fetched s) { s with pc := s.pc + 1 } := by
  rw [step_running s h, fetchInstr_in s hp]; rfl

/-- The tick of a block that is not Running (R150). -/
theorem step_not (s : State) (h : s.status ≠ .running) : step s = .next s := by
  rw [step]; split <;> simp_all

/-- A tick by cases: not Running, a fetch outside ROM, or an instruction executed. -/
theorem step_cases {s t : State} (h : step s = .next t) :
    (s.status ≠ .running ∧ t = s) ∨
    (s.status = .running ∧ addressSpace s.W ≤ s.pc.toNat ∧ t = s.raise .romOutOfRange) ∨
    (s.status = .running ∧ s.pc.toNat < addressSpace s.W ∧
      exec (fetched s) { s with pc := s.pc + 1 } = .next t) := by
  by_cases hr : s.status = .running
  · by_cases hp : s.pc.toNat < addressSpace s.W
    · rw [step_in s hr hp] at h; exact .inr (.inr ⟨hr, hp, h⟩)
    · rw [step_running s hr, fetchInstr_out s (by omega)] at h
      cases h
      exact .inr (.inl ⟨hr, by omega, rfl⟩)
  · rw [step_not s hr] at h
    cases h
    exact .inl ⟨hr, rfl⟩

/-- No instruction has more than four immediate bytes (R123). -/
theorem immLength_le : ∀ b : Byte, immLength b ≤ 4 := by decide +kernel

/-- A byte that announces immediate bytes is a literal of that width (R123). -/
theorem decodeByte_of_immLength : ∀ b : Byte, immLength b ≠ 0 → ∀ n,
    decodeByte b n = .lit (b.getLsbD 6) (widthOfCode (b.extractLsb' 4 2)) (BitVec.ofNat 32 n) ∧
      immLength b = (widthOfCode (b.extractLsb' 4 2)).bytes := by
  intro b hb n
  simp only [immLength] at hb ⊢
  split at hb
  · rename_i h
    simp only [Bool.and_eq_true, beq_iff_eq] at h
    simp [decodeByte, h]
  · simp at hb

/-- A byte with bit 7 clear is a halt (R153). -/
theorem decodeByte_halt : ∀ b : Byte, b.toNat < 128 → ∀ n, decodeByte b n = .halt (b.extractLsb' 0 7) := by
  intro b hb n
  have : ∀ b : Byte, b.toNat < 128 → b.getLsbD 7 = false := by decide +kernel
  rw [decodeByte, this b hb]; rfl

/-! ### The condition byte and the immediate -/

/-- The latching of the condition: the stack it leaves, when the effect is performed, and what stays. -/
theorem latchCondition_spec (sk : Bool) (s : State) :
    ∃ D₁, s.D.After (operandDepth sk) 0 0 D₁ ∧ (latchCondition sk s).D = D₁ ∧
      (latchCondition sk s).W = s.W ∧ (latchCondition sk s).pc = s.pc ∧
      ((latchCondition sk s).skip.exec = true ↔ Performs sk s) ∧
      (latchCondition sk s).devices = s.devices ∧ (latchCondition sk s).status = s.status := by
  cases sk
  · refine ⟨s.D, ?_, rfl, rfl, rfl, ?_, rfl, rfl⟩
    · simp [operandDepth, Stack.After]
    · simp [latchCondition, Performs]
  · refine ⟨s.D.pop.2, Stack.pop_after _, rfl, rfl, rfl, ?_, rfl, rfl⟩
    simp [latchCondition, Performs, conditionHolds, Stack.pop_value]

/-- A literal past the top of ROM (R241). -/
theorem exec_lit_past_rom (sk : Bool) (w : Width) (imm : BitVec 32) (s : State)
    (h : addressSpace s.W < s.pc.toNat + w.bytes) :
    exec (.lit sk w imm) s = .next ((latchCondition sk s).raise .romOutOfRange) := by
  have e : ∀ f, immediateFetch w f (latchCondition sk s) = .next ((latchCondition sk s).raise .romOutOfRange) := by
    intro f
    rw [immediateFetch, if_neg]
    cases sk <;> simp only [latchCondition_false, latchCondition_true] <;> omega
  show execLit sk w imm s = _
  rw [execLit, predicated, e, e]; split <;> rfl

/-! ### What executing can change -/

/-- What executing an instruction other than a halt can change: ROM, the device table, `W`, the start latch and the
diagnostic port stay; events are added at the end, and RAM changes by the recorded writes, all below `M`; the status
stays, or a fault is taken and recorded. -/
structure Changes (s t : State) : Prop where
  rom : t.rom = s.rom
  devices : t.devices = s.devices
  W : t.W = s.W
  started : t.started = s.started
  diagPort : t.diagPort = s.diagPort
  ev : ∃ es, t.events = s.events ++ es ∧ t.ram = replay es s.ram ∧
    ∀ a b, Event.ramWrite a b ∈ es → a < addressSpace s.W
  st : (t.status = s.status ∧ t.panicCause = s.panicCause) ∨ (t.status = .panic ∧ t.panicCause.isSome = true)

/-- Nothing changed. -/
theorem Changes.refl (s : State) : Changes s s :=
  ⟨rfl, rfl, rfl, rfl, rfl, ⟨[], by simp [replay]⟩, .inl ⟨rfl, rfl⟩⟩

/-- One change after another. -/
theorem Changes.trans {s t u : State} (h : Changes s t) (k : Changes t u) : Changes s u := by
  obtain ⟨a1, a2, a3, a4, a5, ⟨es, a6, a7, a8⟩, a9⟩ := h
  obtain ⟨b1, b2, b3, b4, b5, ⟨fs, b6, b7, b8⟩, b9⟩ := k
  refine ⟨b1.trans a1, b2.trans a2, b3.trans a3, b4.trans a4, b5.trans a5, ⟨es ++ fs, ?_, ?_, ?_⟩, ?_⟩
  · rw [b6, a6, List.append_assoc]
  · rw [b7, a7, replay_append]
  · intro a b hm
    rcases List.mem_append.1 hm with hm | hm
    · exact a8 a b hm
    · rw [← a3]; exact b8 a b hm
  · rcases b9 with ⟨c, d⟩ | c
    · rw [c, d]; exact a9
    · exact .inr c

/-- A change of the program counter, the stacks, the latch or the device inputs alone. -/
theorem Changes.of_eq {s t : State} (h1 : t.rom = s.rom) (h2 : t.devices = s.devices) (h3 : t.W = s.W)
    (h4 : t.started = s.started) (h5 : t.diagPort = s.diagPort) (h6 : t.events = s.events) (h7 : t.ram = s.ram)
    (h8 : t.status = s.status) (h9 : t.panicCause = s.panicCause) : Changes s t :=
  ⟨h1, h2, h3, h4, h5, ⟨[], by simp [replay, h6, h7]⟩, .inl ⟨h8, h9⟩⟩

/-- A fault taken (R301). -/
theorem Changes.raise (s : State) (c : PanicCause) : Changes s (s.raise c) :=
  ⟨rfl, rfl, rfl, rfl, rfl, ⟨[], by simp [replay]⟩, .inr ⟨rfl, rfl⟩⟩

/-- A diagnostic event (R290). -/
theorem Changes.diag (s : State) (i : DiagItem) (v) : Changes s (s.emit (.diag i v)) :=
  ⟨rfl, rfl, rfl, rfl, rfl, ⟨[.diag i v], by simp [replay]⟩, .inl ⟨rfl, rfl⟩⟩

/-- A new data stack. -/
theorem Changes.setD (S : Stack) (s : State) : Changes s (s.setD S) :=
  Changes.of_eq rfl rfl rfl rfl rfl rfl rfl rfl rfl

/-- The events of a store are the writes of its cells. -/
theorem storeEvents_eq (a n v : Nat) :
    storeEvents a n v = (cellsFrom a (bytesOf n v)).map (fun c => Event.ramWrite c.1 c.2) := by
  induction n generalizing a with
    | zero => rfl
    | succ n ih =>
      simp only [bytesOf, cellsFrom, List.map_cons, ← ih, storeEvents, List.range_succ_eq_map, List.map_map]
      congr 1
      apply List.map_congr_left
      intro j _
      have e1 : a + 1 + j = a + j.succ := by omega
      have e2 : n - 1 - j = n + 1 - 1 - j.succ := by omega
      simp only [Function.comp, e1, e2]

/-- A store, done or refused with a fault. -/
theorem Changes.storeAt (a n v : Nat) (s : State) : Changes s (storeAt a n v s) := by
  rw [storeAt_eq]
  split
  · rename_i h
    refine ⟨rfl, rfl, rfl, rfl, rfl, ⟨storeEvents a n v, rfl, ?_, ?_⟩, .inl ⟨rfl, rfl⟩⟩
    · rw [storeEvents_eq, replay_ramWrites]
    · intro x b hm
      rw [storeEvents_eq, List.mem_map] at hm
      obtain ⟨c, hc, he⟩ := hm
      simp only [Event.ramWrite.injEq] at he
      have := mem_cellsFrom hc
      rw [bytesOf_length] at this
      omega
  · exact Changes.raise _ _

/-- The dispatch of selectors; it leaves the program counter alone. -/
theorem Changes.calls {sels : List Byte} {s t : State} (h : callDevices sels s = .next t) :
    Changes s t ∧ t.pc = s.pc := by
  obtain ⟨replies, h1, h2, h3, h4⟩ := callDevices_next h
  have hf : Changes s (afterCalls sels replies s) :=
    ⟨rfl, rfl, rfl, rfl, rfl, ⟨_, rfl, (callEvents_replay _ _ _ _ h1 h3).symm, callEvents_mem _ _ _ _ h2⟩,
      .inl ⟨rfl, rfl⟩⟩
  rcases h4 with ⟨-, rfl⟩ | ⟨_, _, _, rfl⟩
  · exact ⟨hf, rfl⟩
  · exact ⟨hf.trans (Changes.raise _ _), rfl⟩

/-- The latching of the condition. -/
theorem Changes.latch (sk : Bool) (s : State) : Changes s (latchCondition sk s) ∧ (latchCondition sk s).pc = s.pc := by
  cases sk
  · exact ⟨Changes.of_eq rfl rfl rfl rfl rfl rfl rfl rfl rfl, rfl⟩
  · exact ⟨Changes.of_eq rfl rfl rfl rfl rfl rfl rfl rfl rfl, rfl⟩

/-- An instruction with its skip bit. -/
theorem Changes.pred {sk : Bool} {eff sup : State → Result} {s t : State}
    (he : ∀ u v, eff u = .next v → Changes u v) (hs : ∀ u v, sup u = .next v → Changes u v)
    (h : predicated sk eff sup s = .next t) : Changes s t := by
  rw [predicated] at h
  split at h
  · exact (Changes.latch sk s).1.trans (he _ _ h)
  · exact (Changes.latch sk s).1.trans (hs _ _ h)

/-- A suppressed instruction. -/
theorem Changes.sup : ∀ u v, suppressedEffect u = .next v → Changes u v := by
  intro u v h; cases h; exact Changes.refl _

/-- The immediate fetch. -/
theorem Changes.imm (w : Width) (f : State → State) (hf : ∀ u, Changes u (f u)) :
    ∀ u v, immediateFetch w f u = .next v → Changes u v := by
  intro u v h
  rw [immediateFetch] at h
  split at h
  · cases h
    have hc : Changes u (u.setPc (u.pc + BitVec.ofNat 33 w.bytes)) :=
      Changes.of_eq rfl rfl rfl rfl rfl rfl rfl rfl rfl
    exact hc.trans (hf _)
  · cases h; exact Changes.raise _ _

/-- Every instruction but a halt. -/
theorem Changes.exec {i : Instr} {s t : State} (hi : isHalt i = false) (h : exec i s = .next t) : Changes s t := by
  cases i
  case halt => cases hi
  case store =>
    refine Changes.pred ?_ Changes.sup h
    intro u v h; cases h
    simp only [withOperand]
    exact ((Changes.setD _ _).trans (Changes.setD _ _)).trans (Changes.storeAt _ _ _ _)
  case load =>
    refine Changes.pred ?_ Changes.sup h
    intro u v h; cases h
    simp only [withOperand, loadFrom_eq]
    split
    · exact Changes.of_eq rfl rfl rfl rfl rfl rfl rfl rfl rfl
    · exact (Changes.setD _ _).trans (Changes.raise _ _)
  case lit =>
    exact Changes.pred (Changes.imm _ (pushResult _ _) fun u => Changes.setD _ _)
      (Changes.imm _ id fun u => Changes.refl _) h
  case dev =>
    refine Changes.pred ?_ Changes.sup h
    intro u v h
    exact (Changes.setD _ _).trans (Changes.calls h).1
  case diag =>
    refine Changes.pred ?_ Changes.sup h
    intro u v h; cases h
    split
    · exact Changes.diag _ _ _
    · exact Changes.refl _
  all_goals
    refine Changes.pred ?_ Changes.sup h
    intro u v h; cases h
    exact Changes.of_eq rfl rfl rfl rfl rfl rfl rfl rfl rfl

end Sys2Proof.Machine
end

