-- ==== Sys2Proof/Tests/Slice0.lean ====
section
/-! SUPPORT. The model's own tests. Expected values are those of spec/95_test_vectors.md, cited by their names there,
or are worked out by hand from the rule cited. Then, for every statement with hypotheses, the witnesses that meet
them. -/

namespace Sys2Proof.Tests

set_option Elab.async false

open Sys2Proof Sys2Proof.Machine

/-! ### Helpers -/

/-- A stack with pointer 0 on which bytes have been pushed, written bottom to top. -/
def st (bs : List Byte) : Stack := Stack.zeroed.pushBytes bs

/-- Exactly these bytes, bottom to top, lie on a stack that started at pointer 0, and the slots above them read 0. -/
def holds (S : Stack) (bs : List Byte) : Bool :=
  decide (S.p = BitVec.ofNat 8 bs.length) &&
    (List.range 12).all fun i => decide (S.slot (BitVec.ofNat 8 i) = bs.getD i 0)

/-- A Running block: its word width, `pc`, the ROM bytes from `pc` on and the data stack. -/
def at_ (W : Width) (pc : BitVec 33) (code : List Byte) (d : List Byte) : State :=
  { State.reset with
    W := W, pc := pc, rom := Memory.ofBytes pc.toNat code, D := st d, status := .running, started := true }

/-- A Running block of word width 3 at address 0. -/
def run (code : List Byte) (d : List Byte) : State := at_ .w3 0 code d

/-- A test on the next state. -/
def ends (r : Result) (p : State → Bool) : Bool :=
  match r with
  | .next t => p t
  | .fault _ => false
  | .refused _ => false

/-- A test on the block a host operation leaves. -/
def leaves (r : HostReply) (p : State → Bool) : Bool :=
  match r with
  | .done t => p t
  | .failure => false
  | .outsideSpec => false

/-- The same block with one device registered for each selector, and what the devices will answer. -/
def withDevices (sels : List (Fin 16 × Byte)) (replies : List DeviceReply) (s : State) : State :=
  { s with
    devices := sels.foldl (fun T p => T.set p.1 (some { sel := p.2, dev := 0 })) s.devices
    deviceReplies := replies }

/-! ### Well-formedness: its one check refuses, and admits the largest immediate -/

theorem test_wf_refuses_immediate_too_large : (Instr.lit false .w1 0x100).wf = false := by decide

theorem test_wf_admits_largest_immediate : (Instr.lit true .w3 0xFFFFFF).wf = true := by decide

/-! ### Decoding: one word of every row, written out from R120 (`1 s k k o o o o`) and R128 -/

theorem test_decode_add : decode [0xB0] = .instr (.add false .w4) [] := by decide
theorem test_decode_and : decode [0x91] = .instr (.and false .w2) [] := by decide
theorem test_decode_xor : decode [0xE2] = .instr (.xor true .w3) [] := by decide
theorem test_decode_shift : decode [0xB3] = .instr (.shift false .w4) [] := by decide
theorem test_decode_swap : decode [0x94] = .instr (.swap false .w2) [] := by decide
theorem test_decode_cmp : decode [0xC5] = .instr (.cmp true .w1) [] := by decide
theorem test_decode_store : decode [0xA6] = .instr (.store false .w3) [] := by decide
theorem test_decode_load : decode [0xB7] = .instr (.load false .w4) [] := by decide
theorem test_decode_dup : decode [0x98] = .instr (.dup false .w2) [] := by decide
theorem test_decode_drop : decode [0xF9] = .instr (.drop true .w4) [] := by decide
theorem test_decode_tor : decode [0xAA] = .instr (.tor false .w3) [] := by decide
theorem test_decode_fromr : decode [0xDB] = .instr (.fromr true .w2) [] := by decide
theorem test_decode_jump : decode [0x9C] = .instr (.jump false .w2) [] := by decide
theorem test_decode_lit :
    decode [0xFD, 0x01, 0x02, 0x03, 0x04, 0x80] = .instr (.lit true .w4 0x01020304) [0x80] := by decide
theorem test_decode_dev : decode [0x9E] = .instr (.dev false .w2) [] := by decide
theorem test_decode_diag : decode [0xEF] = .instr (.diag true .programCounter) [] := by decide
theorem test_decode_halt : decode [0x7F] = .instr (.halt 0x7F) [] := by decide

theorem test_decode_names_truncated_literal : decode [0xAD, 0x01, 0x02] = .refused .truncatedLiteral := by decide

/-- A table word: a literal of width 2 whose immediate bits are all 0, and nothing from too few bits. -/
theorem test_decode_table_word :
    decodeTableWord 8 0x9D = some (.lit false .w2 0) ∧ decodeTableWord 24 0x15099D = some (.lit false .w2 0x0915) ∧
    decodeTableWord 7 0x00 = none := by decide

/-- A table word placed after reset is fetched and executed by the next tick: `lit.2 0x0915` (E3). -/
theorem test_fetch_word_runs :
    ends (step (State.reset.withFetchWord 24 0x15099D)) (fun t => decide (holds t.D [0x09, 0x15] ∧ t.pc = 3)) := by
  decide +kernel

/-! ### One step of every instruction -/

/-- V-A5: `add.3`. -/
theorem test_add_carries :
    ends (step (run [0xA0] [0x12, 0x34, 0x56, 0x00, 0x00, 0x01])) (fun t => decide (holds t.D [0x12, 0x34, 0x57])) := by
  decide +kernel

/-- V-A8: `add.1` on empty stacks pops below the bottom: the pointer wraps. -/
theorem test_add_underflows : ends (step (run [0x80] [])) (fun t => decide (t.D.p = 255 ∧ t.status = .running)) := by
  decide +kernel

/-- V-A10: `and.2`. -/
theorem test_and : ends (step (run [0x91] [0x12, 0x34, 0x0F, 0xF0])) (fun t => decide (holds t.D [0x02, 0x30])) := by
  decide +kernel

/-- V-A13: `xor.2`. -/
theorem test_xor : ends (step (run [0x92] [0x12, 0x34, 0xFF, 0xFF])) (fun t => decide (holds t.D [0xED, 0xCB])) := by
  decide +kernel

/-- V-A22: `shift.2` by 0x14, right 4 and then left 1. -/
theorem test_shift : ends (step (run [0x93] [0x0F, 0xF0, 0x14])) (fun t => decide (holds t.D [0x01, 0xFE])) := by
  decide +kernel

/-- V-A18: `shift.1` left by 15 loses every bit. -/
theorem test_shift_truncates : ends (step (run [0x83] [0x81, 0xF0])) (fun t => decide (holds t.D [0x00])) := by
  decide +kernel

/-- V-A29: `cmp.2` pushes one byte. -/
theorem test_cmp_pushes_one_byte :
    ends (step (run [0x95] [0x01, 0x00, 0x00, 0xFF])) (fun t => decide (holds t.D [0x01])) := by decide +kernel

/-- V-A30: `cmp.4` below. -/
theorem test_cmp_below :
    ends (step (run [0xB5] [0, 0, 0, 0, 0xFF, 0xFF, 0xFF, 0xFF])) (fun t => decide (holds t.D [0xFF])) := by
  decide +kernel

/-- V-S2: `swap.2`. -/
theorem test_swap : ends (step (run [0x94] [1, 2, 3, 4])) (fun t => decide (holds t.D [3, 4, 1, 2])) := by
  decide +kernel

/-- V-S4: `dup.2`. -/
theorem test_dup : ends (step (run [0x98] [0x12, 0x34])) (fun t => decide (holds t.D [0x12, 0x34, 0x12, 0x34])) := by
  decide +kernel

/-- V-S5: `dup.1` at pointer 0 takes the residual byte of slot 255. -/
theorem test_dup_residual :
    ends (step { run [0x88] [] with D := { buf := Vector.replicate 256 0xAB, p := 0 } })
      (fun t => decide (t.D.p = 1 ∧ t.D.slot 255 = 0xAB ∧ t.D.slot 0 = 0xAB)) := by decide +kernel

/-- V-S7: `drop.2` zeroes what it drops. -/
theorem test_drop : ends (step (run [0x99] [1, 2, 3])) (fun t => decide (holds t.D [1])) := by decide +kernel

/-- V-S9: `tor.2`. -/
theorem test_tor :
    ends (step (run [0x9A] [0x12, 0x34])) (fun t => decide (holds t.D [] ∧ holds t.R [0x12, 0x34])) := by decide +kernel

/-- V-S13: `tor.1?` suppressed. -/
theorem test_tor_suppressed :
    ends (step (run [0xCA] [0x06, 0x00])) (fun t => decide (holds t.D [0x06] ∧ holds t.R [])) := by decide +kernel

/-- V-S10: `fromr.1`. -/
theorem test_fromr :
    ends (step { run [0x8B] [] with R := st [0x06] }) (fun t => decide (holds t.D [0x06] ∧ holds t.R [])) := by
  decide +kernel

/-- V-M3: `store.4` writes four bytes in ascending order. -/
theorem test_store :
    ends (step (run [0xB6] [0xDE, 0xAD, 0xBE, 0xEF, 0, 0, 0])) (fun t => decide (
      t.ram = [(0, 0xDE), (1, 0xAD), (2, 0xBE), (3, 0xEF)] ∧ holds t.D [] ∧
      t.events = [.ramWrite 0 0xDE, .ramWrite 1 0xAD, .ramWrite 2 0xBE, .ramWrite 3 0xEF])) := by decide +kernel

/-- V-M9: `store.2` across the top of RAM panics and writes nothing. -/
theorem test_store_past_top :
    ends (step (run [0x96] [0x12, 0x34, 0xFF, 0xFF, 0xFF])) (fun t => decide (
      t.status = .panic ∧ t.panicCause = some .ramOutOfRange ∧ holds t.D [] ∧ t.ram = [] ∧ t.events = [])) := by
  decide +kernel

/-- V-M5: `load.2` after V-M3. -/
theorem test_load :
    ends (step { run [0x97] [0, 0, 1] with ram := [(0, 0xDE), (1, 0xAD), (2, 0xBE), (3, 0xEF)] })
      (fun t => decide (holds t.D [0xAD, 0xBE])) := by decide +kernel

/-- V-M13: with `W = 1` the address is one byte, and `load.2` at 0xFF panics. -/
theorem test_load_past_top :
    ends (step (at_ .w1 0 [0x97] [0xFF])) (fun t => decide (t.status = .panic ∧ holds t.D [])) := by decide +kernel

/-- V-J3: `jump.4` to `M` does not fault, and the next tick does. -/
theorem test_jump_to_top :
    ends (step (run [0xBC] [1, 0, 0, 0])) (fun t =>
      decide (t.pc = 0x1000000 ∧ t.status = .running) && ends (step t) (fun u =>
        decide (u.pc = 0x1000000 ∧ u.panicCause = some .romOutOfRange))) := by decide +kernel

/-- V-J4: `jump.1?` suppressed at address 5. -/
theorem test_jump_suppressed :
    ends (step (at_ .w3 5 [0xCC] [0x10, 0x00])) (fun t => decide (t.pc = 6 ∧ holds t.D [0x10])) := by decide +kernel

/-- V-J10: `lit.2` whose immediate is cut off by the top of ROM. -/
theorem test_lit_past_top :
    ends (step (at_ .w1 0xFE [0x9D, 0x12] [])) (fun t => decide (
      t.pc = 0xFF ∧ holds t.D [] ∧ t.panicCause = some .romOutOfRange)) := by decide +kernel

/-- V-X2: `dev.2` calls the top selector first and pushes its result first. -/
theorem test_dev :
    ends (step (withDevices [(0, 0x01), (1, 0x02)] [.returns [] 0xA1, .returns [] 0xA2] (run [0x9E] [0x02, 0x01])))
      (fun t => decide (holds t.D [0xA1, 0xA2] ∧
        t.events = [.deviceCall 0 0x01 0xA1, .deviceCall 1 0x02 0xA2])) := by decide +kernel

/-- V-X3: the second selector is unmatched. -/
theorem test_dev_unmatched :
    ends (step (withDevices [(0, 0x01)] [.returns [] 0xA1] (run [0x9E] [0x02, 0x01])))
      (fun t => decide (holds t.D [0xA1] ∧ t.panicCause = some .unregisteredDevice)) := by decide +kernel

/-- V-G3: `diag.2` at address 5 reports 6. -/
theorem test_diag :
    ends (step (at_ .w3 5 [0xAF] [])) (fun t => decide (t.events = [.diag .programCounter 6] ∧ t.pc = 6)) := by
  decide +kernel

/-- V-G5: `diag.1?` suppressed. -/
theorem test_diag_suppressed : ends (step (run [0xDF] [0])) (fun t => decide (t.events = [] ∧ holds t.D [])) := by
  decide +kernel

/-- V-Y3: 0x40 halts; its bit 6 pops nothing. -/
theorem test_halt :
    ends (step (run [0x40] [0])) (fun t => decide (t.status = .halted ∧ t.pc = 1 ∧ holds t.D [0])) := by decide +kernel

/-- V-A9 with a skip bit: `and.1?` with condition 1. -/
theorem test_skip_executes :
    ends (step (run [0xC1] [0x0F, 0x3C, 0x01])) (fun t => decide (holds t.D [0x0C])) := by decide +kernel

/-- V-Y9: `lit.1?` with condition 0, a suppressed literal, passes over its immediate. -/
theorem test_skip_literal : ends (step (run [0xCD, 0x99] [0])) (fun t => decide (t.pc = 2 ∧ holds t.D [])) := by
  decide +kernel

/-! ### Witnesses: concrete states and operands that meet the hypotheses of each statement -/

theorem witness_DecodeEncodeRoundTrip : (Instr.lit true .w2 0xFFFF).wf = true ∧ (Instr.halt 0x7F).wf = true := by decide

theorem witness_DecodedBytesAreTheEncoding : decode [0x9D, 0x09, 0x15, 0x00] = .instr (.lit false .w2 0x0915) [0x00] := by
  decide

/-- At the last byte of ROM (only one byte is left), and for a literal that ends exactly at the top of ROM. -/
theorem witness_StepRunsDecodedInstruction :
    (let s := at_ .w1 0xFF [0x80] []
     s.status = .running ∧ s.pc.toNat < addressSpace s.W ∧
      decode (s.rom.bytes s.pc.toNat (min 5 (addressSpace s.W - s.pc.toNat))) = .instr (.add false .w1) []) ∧
    (let s := at_ .w1 0xFE [0x8D, 0x33] []
     decode (s.rom.bytes s.pc.toNat (min 5 (addressSpace s.W - s.pc.toNat))) = .instr (.lit false .w1 0x33) []) := by
  decide +kernel

/-- The literal of V-Y12 without a skip bit, and the one of V-Y13 with it. -/
theorem witness_LiteralPastTopOfRomPanics (ib : Byte) (hib : ib = 0x8D ∨ ib = 0xCD) :
    let s := at_ .w1 0xFF [ib] [0]
    s.status = .running ∧ s.pc.toNat < addressSpace s.W ∧
      decode (s.rom.bytes s.pc.toNat (min 5 (addressSpace s.W - s.pc.toNat))) = .refused .truncatedLiteral ∧
      s.D.After 1 0 0 s.D.pop.2 ∧ (s.rom.read s.pc.toNat = ib) := by
  rcases hib with rfl | rfl
  · exact ⟨rfl, by decide, by decide +kernel, Stack.pop_after _, by decide +kernel⟩
  · exact ⟨rfl, by decide, by decide +kernel, Stack.pop_after _, by decide +kernel⟩

theorem witness_TerminalStatusKeepsState : State.reset.status ≠ .running := by decide

/-- V-Y11: the first address outside ROM. -/
theorem witness_FetchOutsideRomPanics :
    let s := at_ .w1 0x100 [] []
    s.status = .running ∧ addressSpace s.W ≤ s.pc.toNat := by decide

/-- The largest halt byte, at the last address of ROM. -/
theorem witness_HaltByteHalts :
    let s := at_ .w1 0xFF [0x7F] []
    s.status = .running ∧ s.pc.toNat < addressSpace s.W ∧ (s.rom.read s.pc.toNat).toNat < 0x80 := by decide +kernel

/-- Both sides of the equivalence occur. -/
theorem witness_HaltsExactlyOnHaltByte :
    ends (step (run [0x00] [])) (fun t => decide (t.status = .halted)) ∧
    ends (step (run [0x80] [])) (fun t => decide (t.status = .running)) := by decide +kernel

theorem witness_SkipFlaggedExecutesAsUnflagged :
    isHalt (.add false .w1) = false ∧ (st [5, 7, 1]).peek 0 ≠ 0 ∧ (st [5, 7, 1]).After 1 0 0 (st [5, 7, 1]).pop.2 :=
  ⟨rfl, by decide +kernel, Stack.pop_after _⟩

theorem witness_SuppressedInstructionOnlyPopsCondition :
    isHalt (.store false .w2) = false ∧ isLiteral (.store false .w2) = false ∧ (st [5, 0]).peek 0 = 0 ∧
      (st [5, 0]).After 1 0 0 (st [5, 0]).pop.2 :=
  ⟨rfl, rfl, by decide +kernel, Stack.pop_after _⟩

/-- Both clauses, at the values of `pc` where they meet (`W = 1`, width 2). -/
theorem witness_SuppressedLiteralPassesImmediate :
    (let s := at_ .w1 0xFE [] [0]
     s.D.peek 0 = 0 ∧ s.D.After 1 0 0 s.D.pop.2 ∧ s.pc.toNat + Width.w2.bytes ≤ addressSpace s.W) ∧
    (let s := at_ .w1 0xFF [] [0]
     s.D.peek 0 = 0 ∧ s.D.After 1 0 0 s.D.pop.2 ∧ addressSpace s.W < s.pc.toNat + Width.w2.bytes) :=
  ⟨⟨by decide +kernel, Stack.pop_after _, by decide⟩, ⟨by decide +kernel, Stack.pop_after _, by decide⟩⟩

/-- One state for each clause: not Running; outside ROM; a literal inside and one cut off; a jump that performs its
effect and one that does not; another instruction. -/
theorem witness_PcWrittenOnlyByFetchLiteralJump :
    ends (step State.reset) (fun t => decide (t.pc = 0)) ∧
    ends (step (at_ .w1 0x100 [] [])) (fun t => decide (t.pc = 0x100)) ∧
    ends (step (at_ .w1 0xFE [0x8D, 0x33] [])) (fun t => decide (t.pc = 0x100)) ∧
    ends (step (at_ .w1 0xFF [0x8D] [])) (fun t => decide (t.pc = 0x100)) ∧
    ends (step (run [0xCC] [0x10, 0x02])) (fun t => decide (t.pc = 0x10)) ∧
    ends (step (run [0xCC] [0x10, 0x00])) (fun t => decide (t.pc = 1)) ∧
    ends (step (run [0x80] [])) (fun t => decide (t.pc = 1)) := by decide +kernel

/-- Each fault is raised by some instruction in a Running block. -/
theorem witness_PanicExactlyWhenDue :
    ends (exec (.lit false .w1 0) (at_ .w1 0x100 [] [])) (fun t => decide (t.panicCause = some .romOutOfRange)) ∧
    ends (exec (.load false .w2) (at_ .w1 0 [] [0xFF])) (fun t => decide (t.panicCause = some .ramOutOfRange)) ∧
    ends (exec (.dev false .w1) (run [] [0x42])) (fun t => decide (t.panicCause = some .unregisteredDevice)) ∧
    ends (exec (.add false .w1) (run [] [])) (fun t => decide (t.panicCause = none)) := by decide +kernel

/-- An instruction that is not `dev`; and for `dev` both sides of the equivalence: suppressed, every call answered, an
unmatched selector after an answered call, and a second call that hangs. -/
theorem witness_OnlyDeviceCallsStop :
    (∀ skip w, Instr.halt 0 ≠ .dev skip w) ∧
    ends (exec (.dev true .w2) (withDevices [(0, 0x01)] [.hangs] (run [] [0x01, 0x01, 0x00]))) (fun _ => true) ∧
    ends (exec (.dev false .w2) (withDevices [(0, 0x01)] (returning [([], 1), ([(0, 1)], 2)]) (run [] [0x01, 0x01])))
      (fun _ => true) ∧
    ends (exec (.dev false .w2) (withDevices [(0, 0x01)] [.returns [] 1, .hangs] (run [] [0x02, 0x01])))
      (fun _ => true) ∧
    ¬ ends (exec (.dev false .w2) (withDevices [(0, 0x01)] [.returns [] 1, .hangs] (run [] [0x01, 0x01])))
      (fun _ => true) :=
  ⟨by simp, by decide +kernel, by decide +kernel, by decide +kernel, by decide +kernel⟩

/-- The premises of its second part: one call answered, and an answer due for the second. -/
theorem witness_OnlyDeviceCallsStop_premises :
    let s := withDevices [(0, 0x01)] [.returns [(5, 7)] 1, .hangs] (run [] [0x01, 0x01])
    AnsweredBy s 0 [([(5, 7)], 1)] ∧ nextAnswer s 0 [([(5, 7)], 1)] = some .hangs := by
  refine ⟨fun earlier reply later h => ?_, by decide +kernel⟩
  cases earlier with
  | nil =>
    simp only [List.nil_append, List.cons.injEq] at h
    rw [← h.1]
    exact ⟨by decide +kernel, by decide +kernel⟩
  | cons _ _ => simp at h

/-- A started block with a program, a registered device and a byte of RAM meets the invariant. -/
theorem inv_of_block (i : Fin 16) :
    ({ run [0x88] [7] with ram := [(5, 1)], devices := State.reset.devices.set i (some ⟨0x10, 3⟩) } : State).Inv where
  ramForm := rfl
  romForm := rfl
  ramRange := by simp [addressSpace, run, at_, Width.bytes]
  romRange := by simp [addressSpace, run, at_, Width.bytes, Memory.ofBytes]
  pcBound := by simp [run, at_]
  selectorsUnique a b e f ha hb _ := by
    simp only [DeviceTable.getElem_set, State.reset] at ha hb
    split at ha <;> split at hb
    · omega
    · simp at hb
    · simp at ha
    · simp at ha
  faultRecord := by simp [run, at_, State.reset]
  startedFirst _ := rfl

theorem witness_StepKeepsInvariant :
    let s := { run [0x88] [7] with ram := [(5, 1)], devices := State.reset.devices.set 3 (some ⟨0x10, 3⟩) }
    s.Inv ∧ ends (step s) (fun t => decide (holds t.D [7, 7])) := ⟨inv_of_block 3, by decide +kernel⟩

/-- A tick that writes RAM: the hypothesis of the two statements on what a tick can change. -/
theorem witness_RamChangesOnlyByRecordedWrites :
    ends (step (run [0x86] [0xAB, 0, 0, 0x10])) (fun t => decide (
      t.ram = [(0x10, 0xAB)] ∧ t.events = [.ramWrite 0x10 0xAB])) := by decide +kernel

theorem witness_StepKeepsRomAndConfiguration :
    ends (step (withDevices [(0, 0x10)] [.returns [(0, 1)] 0x41] (run [0x8E] [0x10]))) (fun t =>
      decide (holds t.D [0x41] ∧ t.ram = [(0, 1)])) := by decide +kernel

theorem witness_PopAfterPushReturnsValue : (0xFFFFFFFF : Nat) < 2 ^ (8 * Width.w4.bytes) := by decide

theorem witness_StackWrapsAfter256Pushes :
    List.replicate 256 (0 : Byte) ≠ [] ∧ (List.replicate 256 (0 : Byte)).length ≤ 256 ∧
    (List.replicate 255 (0 : Byte)).length = 255 := by decide +kernel

theorem witness_UnderflowReturnsResidualByte : Stack.zeroed.p = 0 := rfl

/-- V-M8: the highest address at which a byte can be stored; and the highest for four bytes. -/
theorem witness_StoreWritesBigEndian :
    (let s := run [] [0x5A, 0xFF, 0xFF, 0xFF]
     s.ram.wf = true ∧ s.D.value 0 s.W.bytes + Width.w1.bytes = addressSpace s.W) ∧
    (let s := run [] [1, 2, 3, 4, 0xFF, 0xFF, 0xFC]
     s.D.value 0 s.W.bytes + Width.w4.bytes = addressSpace s.W) := by decide +kernel

/-- V-M9: one byte too many. -/
theorem witness_StoreOutsideRamPanics :
    let s := run [] [0x12, 0x34, 0xFF, 0xFF, 0xFF]
    s.D.value 0 s.W.bytes + Width.w2.bytes = addressSpace s.W + 1 := by decide +kernel

/-- V-M10: the highest address of a three-byte load. -/
theorem witness_LoadPushesBigEndianValue :
    let s := run [] [0xFF, 0xFF, 0xFD]
    s.D.value 0 s.W.bytes + Width.w3.bytes = addressSpace s.W := by decide +kernel

/-- V-M11: one byte too many. -/
theorem witness_LoadOutsideRamPanics :
    let s := run [] [0xFF, 0xFF, 0xFD]
    s.D.value 0 s.W.bytes + Width.w4.bytes = addressSpace s.W + 1 := by decide +kernel

/-- E7, the store; and a stack on which the address has been pushed again. -/
theorem witness_LoadAfterStoreReturnsValue :
    let s := run [] [0xBE, 0xEF, 0x00, 0x20, 0x00]
    s.ram.wf = true ∧ s.D.value 0 s.W.bytes + Width.w2.bytes ≤ addressSpace s.W ∧
    ends (exec (.store false .w2) s) (fun t => decide (t.ram = [(0x2000, 0xBE), (0x2001, 0xEF)])) ∧
    ∀ T : Stack, T.After 0 s.W.bytes (s.D.value 0 s.W.bytes) (T.pushN s.W.bytes (s.D.value 0 s.W.bytes)) :=
  ⟨rfl, by decide +kernel, by decide +kernel, fun _ => Stack.pushN_after _ _ _ (by decide)⟩

/-- A literal whose immediate ends exactly at the top of ROM. -/
theorem witness_LiteralPushesImmediate :
    let s := at_ .w1 0xFC [] []
    s.pc.toNat + Width.w4.bytes = addressSpace s.W := by decide

theorem witness_LiteralTickPushesRomBytes :
    let s := at_ .w1 0xFD [0x9D, 0x09, 0x15] []
    s.status = .running ∧ s.pc.toNat + 1 + Width.w2.bytes = addressSpace s.W ∧
      s.rom.read s.pc.toNat = opcodeByte false .w2 13 := by decide +kernel

/-- Two devices that return; the first writes the highest byte of RAM. -/
theorem witness_DeviceInterruptCallsEachSelector :
    let replies : List (List Host.Cell × Byte) := [([(0xFFFFFF, 7)], 0xA1), ([], 0xA2)]
    let s := withDevices [(0, 0x01), (15, 0x02)] (returning replies ++ [.hangs]) (run [] [0x02, 0x01])
    replies.length = Width.w2.bytes ∧ s.deviceReplies = returning replies ++ [.hangs] ∧
    (∀ r ∈ replies, ∀ c ∈ r.1, c.1 < addressSpace s.W) ∧
    (∀ j, j < Width.w2.bytes → (findDevice s.devices (s.D.peek j)).isSome = true) := by decide +kernel

/-- V-X4, no call before the unmatched selector; and V-X3, one call before it. -/
theorem witness_UnmatchedSelectorPanics :
    (let s := withDevices [(0, 0x01)] [] (run [] [0x01, 0x02])
     ([] : List (List Host.Cell × Byte)).length < Width.w2.bytes ∧ s.deviceReplies = returning [] ++ [] ∧
     findDevice s.devices (s.D.peek 0) = none) ∧
    (let replies : List (List Host.Cell × Byte) := [([(0, 1)], 0xA1)]
     let s := withDevices [(0, 0x01)] (returning replies) (run [] [0x02, 0x01])
     replies.length < Width.w2.bytes ∧ s.deviceReplies = returning replies ++ [] ∧
     (∀ r ∈ replies, ∀ c ∈ r.1, c.1 < addressSpace s.W) ∧
     (∀ j, j < replies.length → (findDevice s.devices (s.D.peek j)).isSome = true) ∧
     findDevice s.devices (s.D.peek replies.length) = none) := by decide +kernel

/-- Each way not to answer, at the first call and at the last of two; the write is at the first address that is not
in RAM. -/
theorem witness_DeviceThatDoesNotAnswerStops (bad : DeviceReply)
    (hb : bad = .hangs ∨ bad = .breaksContract ∨ bad = .returns [(0x1000000, 1)] 0) :
    let s := withDevices [(0, 0x01), (1, 0x02)] (returning [([], 0xA1)] ++ [bad]) (run [] [0x02, 0x01])
    let s' := withDevices [(0, 0x01), (1, 0x02)] (returning [] ++ [bad]) (run [] [0x02, 0x01])
    s.deviceReplies = returning [([], 0xA1)] ++ bad :: [] ∧ s'.deviceReplies = returning [] ++ bad :: [] ∧
    ([([], 0xA1)] : List (List Host.Cell × Byte)).length < Width.w2.bytes ∧
    (∀ j, j ≤ 1 → (findDevice s.devices (s.D.peek j)).isSome = true) ∧
    (∃ c ∈ ([(0x1000000, 1)] : List Host.Cell), addressSpace s.W ≤ c.1) := by
  rcases hb with rfl | rfl | rfl <;> decide +kernel

/-- The launch input is empty; and it runs out after the first of two calls, which wrote RAM. -/
theorem witness_FreeAnswerActsAsLaunchAnswer :
    (let s := withDevices [(4, 0x10)] [] (run [] [0x10])
     s.deviceReplies = returning [] ∧ findDevice s.devices (s.D.peek 0) = some (4, ⟨0x10, 0⟩)) ∧
    (let replies : List (List Host.Cell × Byte) := [([(0, 1)], 0xA1)]
     let s := withDevices [(0, 0x01), (1, 0x02)] (returning replies) (run [] [0x02, 0x01])
     replies.length < Width.w2.bytes ∧ s.deviceReplies = returning replies ∧
     (∀ r ∈ replies, ∀ c ∈ r.1, c.1 < addressSpace s.W) ∧
     (∀ j, j < replies.length → (findDevice s.devices (s.D.peek j)).isSome = true) ∧
     findDevice s.devices (s.D.peek replies.length) = some (1, ⟨0x02, 0⟩)) := by decide +kernel

/-- Selectors that are there and not there, in a block that meets the invariant. -/
theorem witness_FindMatchesWholeSelector :
    let s := { run [0x88] [7] with ram := [(5, 1)], devices := State.reset.devices.set 15 (some ⟨0x10, 3⟩) }
    s.Inv ∧ findDevice s.devices 0x10 = some (15, ⟨0x10, 3⟩) ∧ findDevice s.devices 0x90 = none :=
  ⟨inv_of_block 15, by decide +kernel⟩

/-- Refused after the start; a selector that is taken; a full table (16 distinct selectors); and a success. -/
theorem witness_RegisterInstallsOrFails :
    register 0 0x10 0 (run [] []) = .outsideSpec ∧
    (let s := withDevices [(0, 0x10)] [] State.reset
     s.started = false ∧ register 0 0x10 1 s = .failure) ∧
    (let s := { State.reset with devices := Vector.ofFn fun i => some ⟨BitVec.ofNat 8 i.val, 0⟩ }
     s.started = false ∧ register 0 0x10 1 s = .failure) ∧
    (let s := { State.reset with devices := Vector.ofFn fun i => if i = 9 then none else some ⟨BitVec.ofNat 8 i.val, 0⟩ }
     leaves (register 3 0x10 1 s) (fun t => decide (t.devices[9] = some ⟨0x10, 1⟩))) := by decide +kernel

theorem witness_RegisterMayTakeAnyFreeEntry :
    let s := withDevices [(0, 0x10)] [] State.reset
    s.started = false ∧ s.devices[(15 : Fin 16)] = none ∧ findDevice s.devices 0x11 = none := by decide +kernel

/-- A block of another word width, not started, meets the invariant. -/
theorem inv_of_new_block : ({ State.reset with W := .w1 } : State).Inv where
  ramForm := rfl
  romForm := rfl
  ramRange := by decide
  romRange := by decide
  pcBound := by decide
  selectorsUnique a b e f ha _ _ := by simp [State.reset] at ha
  faultRecord := by decide
  startedFirst := by decide

theorem witness_HostOperationsKeepInvariant :
    let s := { State.reset with W := .w1 }
    s.Inv ∧ leaves (register 0 0x10 1 s) (fun t => decide (t.devices[0] = some ⟨0x10, 1⟩)) ∧
      start s = .done { s with status := .running, started := true } :=
  ⟨inv_of_new_block, by decide +kernel, rfl⟩

/-- The zero program: it is started, and one tick halts it. -/
theorem witness_StartAcceptedOnce :
    (State.reset.status = .halted ∧ State.reset.started = false) ∧
    start State.reset = .done { State.reset with status := .running, started := true } ∧
    ends (core.run 1 { State.reset with status := .running, started := true })
      (fun u => decide (u.status = .halted)) :=
  ⟨by decide, rfl, by decide +kernel⟩

/-- An image that cannot be read, one byte too many, and exactly `M` bytes. -/
theorem witness_InitRefusesOversizeImage :
    Width.w1.bytes = 1 ∧
    (⟨1, none, true, []⟩ : Launch).image = none ∧
    2 ^ (8 * 1) < (List.replicate 257 (0x80 : Byte)).length ∧
    (List.replicate 256 (0x80 : Byte)).length ≤ 2 ^ (8 * 1) := by decide +kernel

theorem witness_InitRefusesIllegalWordWidth :
    ∀ W : Nat, W = 0 ∨ W = 5 →
      let l : Launch := ⟨W, some [0x00], true, []⟩
      l.W ≠ 1 ∧ l.W ≠ 2 ∧ l.W ≠ 3 ∧ l.W ≠ 4 := by
  rintro W (rfl | rfl) <;> decide

theorem witness_InitLoadsImageAndMeetsInvariant :
    init ⟨1, some [0x8D, 0x00, 0x07], false, []⟩ =
      .ready { State.reset with W := .w1, rom := [(0, 0x8D), (2, 0x07)], diagPort := false } := rfl

/-- A block without the port (V-G7) and one with it. -/
theorem witness_DiagnosticOnlyReports :
    ({ run [] [] with diagPort := false } : State).diagPort = false ∧ (run [] []).diagPort = true := by decide

end Sys2Proof.Tests
end

section
/-! PROOF. The event record, the fault record and the diagnostic port are not read (spec/00_scope.md R13,
spec/46_diagnostic.md R291, spec/60_exceptions.md R302): every effect ignores them, so the tick does. -/

namespace Sys2Proof.Machine

open Sys2Proof

/-- The state with another diagnostic port, event record and fault record. -/
def State.withRecords (port : Bool) (es : List Event) (c : Option PanicCause) (s : State) : State :=
  { s with diagPort := port, events := es, panicCause := c }

/-- An effect ignores the records: from two states that differ only in them it gives answers that differ at most in
them. -/
def IgnoresRecords (effect : State → Result) : Prop :=
  ∀ (port : Bool) (es : List Event) (c : Option PanicCause) (s : State),
    mapNext (State.withRecords port es c) (effect (s.withRecords port es c)) =
      mapNext (State.withRecords port es c) (effect s)

section
variable (port : Bool) (es : List Event) (c : Option PanicCause)

/-! ### What the records do not enter -/

@[simp] theorem State.withRecords_pc (s : State) : (s.withRecords port es c).pc = s.pc := rfl
@[simp] theorem State.withRecords_status (s : State) : (s.withRecords port es c).status = s.status := rfl
@[simp] theorem State.withRecords_devices (s : State) : (s.withRecords port es c).devices = s.devices := rfl
@[simp] theorem State.withRecords_W (s : State) : (s.withRecords port es c).W = s.W := rfl
@[simp] theorem State.withRecords_skip (s : State) : (s.withRecords port es c).skip = s.skip := rfl

theorem latchCondition_withRecords (skip : Bool) (s : State) :
    latchCondition skip (s.withRecords port es c) = (latchCondition skip s).withRecords port es c := by
  cases skip <;> rfl

theorem fetchInstr_withRecords (s : State) : fetchInstr (s.withRecords port es c) = fetchInstr s := rfl

theorem nextReply_withRecords (dev : Nat) (sel : Byte) (s : State) :
    nextReply dev sel (s.withRecords port es c) = nextReply dev sel s := rfl

theorem deviceReturns_withRecords (i : Fin 16) (sel : Byte) (writes : List Host.Cell) (r : Byte) (s : State) :
    (deviceReturns i sel writes r (s.withRecords port es c)).withRecords port es c =
      (deviceReturns i sel writes r s).withRecords port es c := by
  simp only [deviceReturns, ramWriteCells_eq]
  rfl

theorem storeAt_withRecords (a n v : Nat) (s : State) :
    (storeAt a n v (s.withRecords port es c)).withRecords port es c = (storeAt a n v s).withRecords port es c := by
  rw [storeAt_eq, storeAt_eq, State.withRecords_W]
  split <;> rfl

theorem loadFrom_withRecords (a n : Nat) (s : State) :
    (loadFrom a n (s.withRecords port es c)).withRecords port es c = (loadFrom a n s).withRecords port es c := by
  rw [loadFrom_eq, loadFrom_eq, State.withRecords_W]
  split <;> rfl

/-- From states that differ only in the records, an effect that ignores them gives answers that differ only there. -/
theorem IgnoresRecords.congr {effect : State → Result} (h : IgnoresRecords effect) {s t : State}
    (hst : s.withRecords port es c = t.withRecords port es c) :
    mapNext (State.withRecords port es c) (effect s) = mapNext (State.withRecords port es c) (effect t) := by
  rw [← h port es c s, hst, h port es c t]

end

/-! ### The effects -/

theorem immediateFetch_ignoresRecords (w : Width) (f : State → State)
    (hf : ∀ port es c s, (f (State.withRecords port es c s)).withRecords port es c = (f s).withRecords port es c) :
    IgnoresRecords (immediateFetch w f) := by
  intro port es c s
  rw [immediateFetch, immediateFetch, State.withRecords_pc, State.withRecords_W]
  split
  · exact congrArg Host.Outcome.next (hf port es c (s.setPc (s.pc + BitVec.ofNat 33 w.bytes)))
  · rfl

theorem storeEffect_ignoresRecords (w : Width) : IgnoresRecords (storeEffect w) :=
  fun port es c _ =>
    congrArg Host.Outcome.next (storeAt_withRecords port es c _ w.bytes _ (State.setD _ (State.setD _ _)))

theorem loadEffect_ignoresRecords (w : Width) : IgnoresRecords (loadEffect w) :=
  fun port es c _ => congrArg Host.Outcome.next (loadFrom_withRecords port es c _ w.bytes (State.setD _ _))

/-- With the port or without it, `diagnostic` changes nothing but the events (R291). -/
theorem diagEffect_ignoresRecords (item : DiagItem) : IgnoresRecords (diagEffect item) := by
  intro port es c s
  have only_events (t : State) :
      mapNext (State.withRecords port es c) (diagEffect item t) = .next (t.withRecords port es c) := by
    rw [diagEffect]
    split <;> rfl
  rw [only_events, only_events]
  rfl

/-- The dispatch of selectors: each call's answer is the same, and what the calls before it did is the same up to the
records. -/
theorem callDevices_ignoresRecords (sels : List Byte) : IgnoresRecords (callDevices sels) := by
  induction sels with
  | nil => intro port es c s; rfl
  | cons sel rest ih =>
    intro port es c s
    rw [callDevices, callDevices, State.withRecords_devices, State.withRecords_W]
    cases findDevice s.devices sel with
    | none => rfl
    | some found =>
      simp only [nextReply_withRecords]
      cases nextReply found.2.dev sel s with
      | hangs => rfl
      | breaksContract => rfl
      | returns writes r =>
        dsimp only
        split
        · exact ih.congr port es c (deviceReturns_withRecords port es c found.1 sel writes r s)
        · rfl

theorem devEffect_ignoresRecords (w : Width) : IgnoresRecords (devEffect w) :=
  fun port es c _ => callDevices_ignoresRecords _ port es c (State.setD _ _)

/-! ### Predication, dispatch and the tick -/

theorem suppressedEffect_ignoresRecords : IgnoresRecords suppressedEffect := fun _ _ _ _ => rfl

/-- The skip bit and the condition byte decide the same way, whatever the records are. -/
theorem predicated_ignoresRecords (skip : Bool) {effect suppressed : State → Result}
    (he : IgnoresRecords effect) (hs : IgnoresRecords suppressed) :
    IgnoresRecords (predicated skip effect suppressed) := by
  intro port es c s
  simp only [predicated, latchCondition_withRecords, State.withRecords_skip]
  split
  · exact he port es c _
  · exact hs port es c _

/-- No instruction reads the records. The instructions of the last case move stack bytes and `pc` alone. -/
theorem exec_ignoresRecords (i : Instr) : IgnoresRecords (exec i) := by
  cases i
  case halt => exact fun _ _ _ _ => rfl
  case store skip w =>
    exact predicated_ignoresRecords skip (storeEffect_ignoresRecords w) suppressedEffect_ignoresRecords
  case load skip w =>
    exact predicated_ignoresRecords skip (loadEffect_ignoresRecords w) suppressedEffect_ignoresRecords
  case lit skip w imm =>
    exact predicated_ignoresRecords skip (immediateFetch_ignoresRecords w _ fun _ _ _ _ => rfl)
      (immediateFetch_ignoresRecords w _ fun _ _ _ _ => rfl)
  case dev skip w =>
    exact predicated_ignoresRecords skip (devEffect_ignoresRecords w) suppressedEffect_ignoresRecords
  case diag skip item =>
    exact predicated_ignoresRecords skip (diagEffect_ignoresRecords item) suppressedEffect_ignoresRecords
  all_goals exact predicated_ignoresRecords _ (fun _ _ _ _ => rfl) suppressedEffect_ignoresRecords

/-- The tick fetches the same instruction, whatever the records are, and executes it. -/
theorem step_ignoresRecords : IgnoresRecords step := by
  intro port es c s
  by_cases hr : s.status = .running
  · rw [step_running s hr, step_running (s.withRecords port es c) hr, fetchInstr_withRecords]
    cases fetchInstr s with
    | none => rfl
    | some i => exact exec_ignoresRecords i port es c s.advance
  · rw [step_not s hr, step_not (s.withRecords port es c) hr]
    rfl

/-- Settles O18: the fetch does not see the records, and every instruction ignores them. -/
theorem recordsAndDiagnosticPortAreNotRead : Obligations.RecordsAndDiagnosticPortAreNotRead :=
  fun s port es c => step_ignoresRecords port es c s

end Sys2Proof.Machine
end

section
/-! PROOF. What a tick can change, and the invariant of the block (spec/10_state.md R34, R35, R49 to R52): each
instruction's effect on `pc` said once, then the tick's frame and the invariant from it. -/

namespace Sys2Proof.Machine

open Sys2Proof

/-! ### `pc` under an instruction (R34) -/

/-- An instruction with its skip bit performs its effect or is suppressed, after the condition byte (R156). -/
theorem predicated_cases {skip : Bool} {effect suppressed : State → Result} {s t : State}
    (h : predicated skip effect suppressed s = .next t) :
    (Performs skip s ∧ effect (latchCondition skip s) = .next t) ∨
      (¬ Performs skip s ∧ suppressed (latchCondition skip s) = .next t) := by
  obtain ⟨_, _, _, _, _, hexec, _⟩ := latchCondition_spec skip s
  rw [predicated] at h
  split at h
  · exact .inl ⟨hexec.1 ‹_›, h⟩
  · exact .inr ⟨fun hp => absurd (hexec.2 hp) ‹_›, h⟩

/-- An effect that leaves `pc` alone wherever it answers a next state. -/
def KeepsPc (effect : State → Result) : Prop := ∀ s t : State, effect s = .next t → t.pc = s.pc

theorem suppressedEffect_keepsPc : KeepsPc suppressedEffect := by
  intro s t h; cases h; rfl

theorem predicated_keepsPc (skip : Bool) {effect : State → Result} (he : KeepsPc effect) :
    KeepsPc (predicated skip effect suppressedEffect) := by
  intro s t h
  rw [← (Changes.latch skip s).2]
  obtain ⟨-, h⟩ | ⟨-, h⟩ := predicated_cases h
  · exact he _ _ h
  · exact suppressedEffect_keepsPc _ _ h

theorem storeAt_pc (a n v : Nat) (s : State) : (storeAt a n v s).pc = s.pc := by
  rw [storeAt_eq]; split <;> rfl

theorem loadFrom_pc (a n : Nat) (s : State) : (loadFrom a n s).pc = s.pc := by
  rw [loadFrom_eq]; split <;> rfl

theorem storeEffect_keepsPc (w : Width) : KeepsPc (storeEffect w) := by
  intro s t h; cases h; exact storeAt_pc ..

theorem loadEffect_keepsPc (w : Width) : KeepsPc (loadEffect w) := by
  intro s t h; cases h; exact loadFrom_pc ..

theorem devEffect_keepsPc (w : Width) : KeepsPc (devEffect w) :=
  fun _ _ h => (Changes.calls h).2

theorem diagEffect_keepsPc (item : DiagItem) : KeepsPc (diagEffect item) := by
  intro s t h; cases h; split <;> rfl

/-- Only a literal and a jump write `pc` while they execute (R34). The instructions of the last case move stack bytes
alone. -/
theorem exec_keepsPc (i : Instr) (hlit : ∀ skip w imm, i ≠ .lit skip w imm) (hjump : ∀ skip w, i ≠ .jump skip w) :
    KeepsPc (exec i) := by
  cases i
  case lit skip w imm => exact absurd rfl (hlit skip w imm)
  case jump skip w => exact absurd rfl (hjump skip w)
  case halt => intro s t h; cases h; rfl
  case store skip w => exact predicated_keepsPc skip (storeEffect_keepsPc w)
  case load skip w => exact predicated_keepsPc skip (loadEffect_keepsPc w)
  case dev skip w => exact predicated_keepsPc skip (devEffect_keepsPc w)
  case diag skip item => exact predicated_keepsPc skip (diagEffect_keepsPc item)
  all_goals
    refine predicated_keepsPc _ ?_
    intro s t h; cases h; rfl

theorem immediateFetch_pc {w : Width} {f : State → State} {s t : State}
    (h : immediateFetch w f s = .next t) (hf : ∀ u, (f u).pc = u.pc) :
    t.pc = if s.pc.toNat + w.bytes ≤ addressSpace s.W then s.pc + BitVec.ofNat 33 w.bytes else s.pc := by
  rw [immediateFetch] at h
  split at h <;> cases h
  · rw [hf, State.setPc_pc, if_pos ‹_›]
  · rw [State.raise_pc, if_neg ‹_›]

/-- A literal, executed or suppressed, passes its immediate where that lies in ROM (R157, R241). -/
theorem exec_lit_pc {skip : Bool} {w : Width} {imm : BitVec 32} {s t : State}
    (h : exec (.lit skip w imm) s = .next t) :
    t.pc = if s.pc.toNat + w.bytes ≤ addressSpace s.W then s.pc + BitVec.ofNat 33 w.bytes else s.pc := by
  obtain ⟨_, _, _, hW, hpc, _⟩ := latchCondition_spec skip s
  rw [← hW, ← hpc]
  obtain ⟨-, h⟩ | ⟨-, h⟩ := predicated_cases h
  · exact immediateFetch_pc h fun _ => rfl
  · exact immediateFetch_pc h fun _ => rfl

/-- A value of `w` bytes fits in `pc` (R33). -/
theorem value_lt_pow_32 (S : Stack) (d : Nat) (w : Width) : S.value d w.bytes < 2 ^ 32 :=
  (value_lt_addressSpace S d w).trans_le (addressSpace_le w)

theorem jumpEffect_pc {w : Width} {s t : State} (h : jumpEffect w s = .next t) :
    t.pc.toNat = s.D.value 0 w.bytes := by
  have hw := w.bytes_le
  obtain ⟨D₁, -, he⟩ := withOperand_spec w.bytes (fun target t => t.setPc (BitVec.ofNat 33 target)) s (by omega)
  rw [jumpEffect, he] at h
  cases h
  have hlt := value_lt_pow_32 s.D 0 w
  rw [State.setPc_pc, BitVec.toNat_ofNat]
  omega

/-- A jump that performs its effect goes to the value below its condition byte, if it has one (R240). -/
theorem exec_jump_pc_of_performs {skip : Bool} {w : Width} {s t : State} (hp : Performs skip s)
    (h : exec (.jump skip w) s = .next t) : t.pc.toNat = s.D.value (operandDepth skip) w.bytes := by
  obtain ⟨-, h⟩ | ⟨hn, -⟩ := predicated_cases h
  · obtain ⟨D₁, hafter, hD, _⟩ := latchCondition_spec skip s
    have hw := w.bytes_le
    have hd : operandDepth skip ≤ 1 := by cases skip <;> decide
    rw [jumpEffect_pc h, hD, hafter.value 0 w.bytes (by omega), Nat.add_zero]
  · exact absurd hp hn

theorem exec_jump_pc_of_suppressed {skip : Bool} {w : Width} {s t : State} (hn : ¬ Performs skip s)
    (h : exec (.jump skip w) s = .next t) : t.pc = s.pc := by
  obtain ⟨hp, -⟩ | ⟨-, h⟩ := predicated_cases h
  · exact absurd hp hn
  · rw [suppressedEffect_keepsPc _ _ h, (Changes.latch skip s).2]

/-! ### `pc` under a tick (R34, R35) -/

/-- The immediate given to the decoder matters to a literal alone, and there to nothing but its immediate. -/
theorem decodeByte_eq_or_lit (b : Byte) (n m : Nat) :
    decodeByte b n = decodeByte b m ∨ ∃ skip w,
      decodeByte b n = .lit skip w (BitVec.ofNat 32 n) ∧ decodeByte b m = .lit skip w (BitVec.ofNat 32 m) := by
  simp only [decodeByte]
  split
  · split
    case h_14 => exact .inr ⟨_, _, rfl, rfl⟩
    all_goals exact .inl rfl
  · exact .inl rfl

/-- The instruction byte alone tells that a literal is fetched (R123). -/
theorem fetched_of_lit {s : State} {skip : Bool} {w : Width} {imm : BitVec 32}
    (h : decodeByte (s.rom.read s.pc.toNat) 0 = .lit skip w imm) : ∃ imm', fetched s = .lit skip w imm' := by
  obtain he | ⟨skip', w', he, h0⟩ := decodeByte_eq_or_lit (s.rom.read s.pc.toNat)
    (bigEndian (s.rom.bytes (s.pc.toNat + 1) (immLength (s.rom.read s.pc.toNat)))) 0
  · exact ⟨imm, he.trans h⟩
  · rw [h] at h0
    cases h0
    exact ⟨_, he⟩

/-- The instruction byte alone tells any other instruction (R123). -/
theorem fetched_of_not_lit {s : State}
    (h : ∀ skip w imm, decodeByte (s.rom.read s.pc.toNat) 0 ≠ .lit skip w imm) :
    fetched s = decodeByte (s.rom.read s.pc.toNat) 0 := by
  obtain he | ⟨skip, w, -, h0⟩ := decodeByte_eq_or_lit (s.rom.read s.pc.toNat)
    (bigEndian (s.rom.bytes (s.pc.toNat + 1) (immLength (s.rom.read s.pc.toNat)))) 0
  · exact he
  · exact absurd h0 (h _ _ _)

/-- The fetch's advance does not wrap inside ROM. -/
theorem pc_succ_toNat {s : State} (hp : s.pc.toNat < addressSpace s.W) : (s.pc + 1).toNat = s.pc.toNat + 1 := by
  have := addressSpace_le s.W
  bv_omega

/-- Settles O14: a tick that executes is split by what its instruction byte decodes to; the other ticks leave `pc`. -/
theorem pcWrittenOnlyByFetchLiteralJump : Obligations.PcWrittenOnlyByFetchLiteralJump := by
  intro s t h
  obtain ⟨hr, rfl⟩ | ⟨hr, hp, rfl⟩ | ⟨hr, hp, h⟩ := step_cases h
  · exact ⟨fun _ => rfl, fun hr' => absurd hr' hr⟩
  · exact ⟨fun _ => rfl, fun _ hp' => absurd hp' (by omega)⟩
  · refine ⟨?_, fun _ _ => ⟨fun skip w imm hd => ?_, fun skip w hd => ?_, fun hlit hjump => ?_⟩⟩
    · rintro (hr' | hp')
      · exact absurd hr hr'
      · omega
    · obtain ⟨imm', hf⟩ := fetched_of_lit hd
      rw [hf] at h
      simpa only [pc_succ_toNat hp] using exec_lit_pc h
    · have hf : fetched s = .jump skip w := (fetched_of_not_lit (by simp [hd])).trans hd
      rw [hf] at h
      exact ⟨fun hperf => exec_jump_pc_of_performs (s := { s with pc := s.pc + 1 }) hperf h,
        fun hsup => exec_jump_pc_of_suppressed (s := { s with pc := s.pc + 1 }) hsup h⟩
    · rw [fetched_of_not_lit hlit] at h
      exact exec_keepsPc _ hlit hjump _ _ h

/-- What an instruction may leave in `pc`: what it was, an address up to `M`, or a popped value (R35). -/
theorem exec_pc_bound {i : Instr} {s t : State} (h : exec i s = .next t) :
    t.pc = s.pc ∨ t.pc.toNat ≤ addressSpace s.W ∨ t.pc.toNat < 2 ^ 32 := by
  by_cases hlit : ∃ skip w imm, i = .lit skip w imm
  · obtain ⟨skip, w, imm, rfl⟩ := hlit
    rw [exec_lit_pc h]
    split
    · have hM := addressSpace_le s.W
      have hw := w.bytes_le
      right; left
      bv_omega
    · exact .inl rfl
  by_cases hjump : ∃ skip w, i = .jump skip w
  · obtain ⟨skip, w, rfl⟩ := hjump
    by_cases hp : Performs skip s
    · right; right
      rw [exec_jump_pc_of_performs hp h]
      exact value_lt_pow_32 ..
    · exact .inl (exec_jump_pc_of_suppressed hp h)
  · push Not at hlit hjump
    exact .inl (exec_keepsPc i hlit hjump s t h)

/-- A tick keeps `pc` at or below `max(M, 2^32 - 1)` (R35). -/
theorem step_pcBound {s t : State} (hb : s.pc.toNat ≤ max (addressSpace s.W) (2 ^ 32 - 1))
    (h : step s = .next t) : t.pc.toNat ≤ max (addressSpace s.W) (2 ^ 32 - 1) := by
  obtain ⟨-, rfl⟩ | ⟨-, -, rfl⟩ | ⟨-, hp, h⟩ := step_cases h
  · exact hb
  · exact hb
  · have hsucc := pc_succ_toNat hp
    obtain hpc | hM | hv := exec_pc_bound h
    · rw [hpc]; simp only; omega
    · exact hM.trans (le_max_left ..)
    · omega

/-! ### What a tick can change (R49 to R52) -/

/-- A halt writes the status and nothing else (R153). -/
theorem exec_halt_eq {i : Instr} {s t : State} (hi : isHalt i = true) (h : exec i s = .next t) :
    t = s.setHalted := by
  cases i
  case halt => cases h; rfl
  all_goals cases hi

/-- A tick makes the changes of an instruction or a fault, or it halts a Running block. -/
theorem step_changes {s t : State} (h : step s = .next t) :
    Changes s t ∨ (s.status = .running ∧ t = s.advance.setHalted) := by
  obtain ⟨-, rfl⟩ | ⟨-, -, rfl⟩ | ⟨hr, -, h⟩ := step_cases h
  · exact .inl (Changes.refl _)
  · exact .inl (Changes.raise _ _)
  · by_cases hi : isHalt (fetched s) = true
    · exact .inr ⟨hr, exec_halt_eq hi h⟩
    · have hadv : Changes s s.advance := Changes.of_eq rfl rfl rfl rfl rfl rfl rfl rfl rfl
      exact .inl (hadv.trans (Changes.exec (by simpa using hi) h))

/-- Settles O21: neither the changes of an instruction or a fault nor a halt touch these. -/
theorem stepKeepsRomAndConfiguration : Obligations.StepKeepsRomAndConfiguration := by
  intro s t h
  obtain hc | ⟨-, rfl⟩ := step_changes h
  · exact ⟨hc.rom, hc.devices, hc.W, hc.started, hc.diagPort⟩
  · exact ⟨rfl, rfl, rfl, rfl, rfl⟩

/-! ### The invariant under a tick -/

/-- The changes of an instruction or a fault in a started block keep the invariant, where `pc` keeps its bound. -/
theorem State.Inv.of_changes {s t : State} (hs : s.Inv) (hstart : s.started = true) (hc : Changes s t)
    (hpc : t.pc.toNat ≤ max (addressSpace s.W) (2 ^ 32 - 1)) : t.Inv := by
  obtain ⟨hrom, hdev, hW, hst, -, ⟨es, -, hram, hes⟩, hstatus⟩ := hc
  constructor
  case ramForm => rw [hram]; exact replay_wf es s.ram hs.ramForm
  case romForm => rw [hrom]; exact hs.romForm
  case ramRange => rw [hram, hW]; exact replay_range _ es s.ram hs.ramRange hes
  case romRange => rw [hrom, hW]; exact hs.romRange
  case pcBound => rw [hW]; exact hpc
  case selectorsUnique => rw [hdev]; exact hs.selectorsUnique
  case faultRecord =>
    obtain ⟨hkeep, hcause⟩ | ⟨hpanic, hcause⟩ := hstatus
    · rw [hkeep, hcause]; exact hs.faultRecord
    · simp [hpanic, hcause]
  case startedFirst => exact fun _ => hst.trans hstart

/-- A Running block that halts keeps the invariant, where `pc` keeps its bound. -/
theorem State.Inv.of_halt {s : State} (hs : s.Inv) (hr : s.status = .running)
    (hpc : (s.pc + 1).toNat ≤ max (addressSpace s.W) (2 ^ 32 - 1)) : s.advance.setHalted.Inv where
  ramForm := hs.ramForm
  romForm := hs.romForm
  ramRange := hs.ramRange
  romRange := hs.romRange
  pcBound := hpc
  selectorsUnique := hs.selectorsUnique
  faultRecord := by
    have hnone := hs.faultRecord
    rw [hr] at hnone
    simpa using hnone
  startedFirst := fun hne => absurd rfl hne

/-- Settles O19: a block that is not Running stays as it is; a Running one is started, `pc` keeps its bound, and what
its tick changes otherwise keeps the invariant. -/
theorem stepKeepsInvariant : Obligations.StepKeepsInvariant := by
  intro s t hs h
  have hpc := step_pcBound hs.pcBound h
  by_cases hr : s.status = .running
  · obtain hc | ⟨-, rfl⟩ := step_changes h
    · exact hs.of_changes (hs.startedFirst (by simp [hr])) hc hpc
    · exact hs.of_halt hr hpc
  · rw [step_not s hr] at h
    cases h
    exact hs

end Sys2Proof.Machine
end

section
/-! PROOF. The skip-flag latch is written before it is read (spec/10_state.md R48, decision D29): no tick depends on the
value it finds there. -/

namespace Sys2Proof.Machine

open Sys2Proof

/-- The condition is latched over whatever the latch held (R154). -/
theorem latchCondition_setSkip (skip : Bool) (l : SkipLatch) (s : State) :
    latchCondition skip (s.setSkip l) = latchCondition skip s := by
  cases skip <;> rfl

theorem predicated_setSkip (skip : Bool) (effect suppressed : State → Result) (l : SkipLatch) (s : State) :
    predicated skip effect suppressed (s.setSkip l) = predicated skip effect suppressed s := by
  simp only [predicated, latchCondition_setSkip]

/-- Every instruction but a halt overwrites the latch (R48), so the answer is the same. -/
theorem exec_setSkip {i : Instr} (hi : isHalt i = false) (l : SkipLatch) (s : State) :
    exec i (s.setSkip l) = exec i s := by
  cases i
  case halt => cases hi
  all_goals exact predicated_setSkip ..

theorem fetchInstr_setSkip (l : SkipLatch) (s : State) : fetchInstr (s.setSkip l) = fetchInstr s := rfl

/-- Settles O17: an executed instruction overwrites the latch; a halt, a failed fetch and a block that is not Running
carry it along unread. -/
theorem skipLatchCarriesNothing : Obligations.SkipLatchCarriesNothing := by
  intro s l
  change mapNext (State.setSkip l) (step (s.setSkip l)) = mapNext (State.setSkip l) (step s)
  by_cases hr : s.status = .running
  · rw [step_running s hr, step_running (s.setSkip l) hr, fetchInstr_setSkip]
    cases fetchInstr s with
    | none => rfl
    | some i =>
      by_cases hi : isHalt i = true
      · cases i
        case halt => rfl
        all_goals cases hi
      · exact congrArg _ (exec_setSkip (by simpa using hi) l s.advance)
  · rw [step_not s hr, step_not (s.setSkip l) hr]
    rfl

end Sys2Proof.Machine
end

section
/-! PROOF. Push and pop on the wrapping stacks (spec/10_state.md R40, R41, R44). -/

namespace Sys2Proof.Machine

open Sys2Proof

/-- Popping the `n` bytes just pushed leaves 0 in their slots and every other slot as it was (R44). -/
theorem Stack.After.slot_pop_of_push {S T U : Stack} {n v : Nat} (hpush : S.After 0 n v T) (hpop : T.After n 0 0 U)
    (i : BitVec 8) : U.slot i = if (i - S.p).toNat < n then 0 else S.slot i := by
  obtain ⟨hp, hslot⟩ := hpush
  have hbase : T.p - BitVec.ofNat 8 n = S.p := by rw [hp]; simp
  rw [hpop.2 i, hbase, hslot i]
  simp only [BitVec.ofNat_eq_ofNat, BitVec.sub_zero, Nat.not_lt_zero, if_false]
  split <;> rfl

/-- Settles O34, from what a push and a pop of `w` bytes do slot by slot. -/
theorem popAfterPushReturnsValue : Obligations.PopAfterPushReturnsValue := by
  intro w v S hv
  have hw : w.bytes ≤ 256 := w.bytes_le.trans (by decide)
  have hpush := Stack.pushN_after w.bytes v S hw
  obtain ⟨hval, hpop⟩ := Stack.popN_spec w.bytes (S.pushN w.bytes v) hw
  refine ⟨?_, ?_, hpush.slot_pop_of_push hpop⟩
  · rw [hval, hpush.value_of_push hw, Nat.mod_eq_of_lt (by rwa [← two_pow_eight_mul])]
  · rw [hpop.1, hpush.1]; simp

theorem Stack.pushBytes_append (as bs : List Byte) (S : Stack) :
    S.pushBytes (as ++ bs) = (S.pushBytes as).pushBytes bs := by
  induction as generalizing S with
  | nil => rfl
  | cons a as ih => exact ih (S.push a)

/-- Settles O35: the pointer counts pushes modulo 256, so the byte after 256 of them goes to the first one's slot. -/
theorem stackWrapsAfter256Pushes : Obligations.StackWrapsAfter256Pushes := by
  refine ⟨fun bs S hne hle => ?_, fun b c bs S hlen => ?_⟩
  · have hpos := List.length_pos_iff.2 hne
    rw [(Stack.pushBytes_spec bs S hle).1]
    constructor <;> intro h <;> bv_omega
  · have h256 : (b :: bs).length = 256 := by simp [hlen]
    obtain ⟨hp, hslot⟩ := Stack.pushBytes_spec (b :: bs) S h256.le
    have hwrap : (S.pushBytes (b :: bs)).p = S.p := by rw [hp, h256]; simp
    have hnext : S.pushBytes (b :: bs ++ [c]) = (S.pushBytes (b :: bs)).push c := Stack.pushBytes_append ..
    refine ⟨?_, ?_, ?_⟩
    · rw [hslot]; simp
    · rw [hnext, Stack.push_slot, hwrap, if_pos rfl]
    · rw [hnext, Stack.push_p, hwrap]

/-- Settles O36: a pop at pointer 0 uses slot `0 - 1`, which is 255. -/
theorem underflowReturnsResidualByte : Obligations.UnderflowReturnsResidualByte := by
  intro S hp
  have hwrap : S.p - 1 = 255 := by rw [hp]; decide
  refine ⟨congrArg S.slot hwrap, hwrap, fun i => ?_⟩
  rw [Stack.pop_slot, hwrap]

end Sys2Proof.Machine
end

section
/-! PROOF. Initialisation and the host's operations (spec/10_state.md R49, R51, R56, spec/45_device.md R261,
spec/70_reset_and_hazards.md R330, R335). -/

namespace Sys2Proof.Machine

open Sys2Proof

/-! ### Initialisation -/

theorem Stack.zeroed_slot (i : BitVec 8) : Stack.zeroed.slot i = 0 := by simp [Stack.slot, Stack.zeroed]

theorem State.reset_devices (i : Fin 16) : State.reset.devices[i] = none := by simp [State.reset]

/-- Settles O20: both memories and the device table are empty, and the block is Halted with no fault on record. -/
theorem resetMeetsInvariant : Obligations.ResetMeetsInvariant where
  ramForm := rfl
  romForm := rfl
  ramRange := fun _ hc => absurd hc List.not_mem_nil
  romRange := fun _ hc => absurd hc List.not_mem_nil
  pcBound := Nat.zero_le _
  selectorsUnique := fun i _ _ _ hi => by rw [State.reset_devices] at hi; cases hi
  faultRecord := by decide
  startedFirst := fun hne => absurd rfl hne

/-- Settles O23. -/
theorem resetValues : Obligations.ResetValues :=
  ⟨rfl, rfl, rfl, rfl, fun i => ⟨Stack.zeroed_slot i, Stack.zeroed_slot i⟩, fun _ => rfl, State.reset_devices, rfl, rfl⟩

theorem legalWidth_eq_none {n : Nat} (h1 : n ≠ 1) (h2 : n ≠ 2) (h3 : n ≠ 3) (h4 : n ≠ 4) : legalWidth n = none := by
  unfold legalWidth
  split <;> trivial

/-- Settles O58: the word width is looked at before the image. -/
theorem initRefusesIllegalWordWidth : Obligations.InitRefusesIllegalWordWidth := by
  intro l h1 h2 h3 h4
  rw [init, legalWidth_eq_none h1 h2 h3 h4]

/-! ### register and start -/

/-- A registration that succeeds: the block is not started, no valid entry holds the selector, and one entry, invalid
before, is filled (R261). -/
theorem register_done {pick : Fin 16} {sel : Byte} {dev : Nat} {s t : State} (h : register pick sel dev s = .done t) :
    s.started = false ∧ findDevice s.devices sel = none ∧ ∃ i : Fin 16, s.devices[i] = none ∧
      t = { s with devices := s.devices.set i (some { sel := sel, dev := dev }) } := by
  rw [register] at h
  split at h
  case isTrue => cases h
  case isFalse hs =>
    split at h
    case h_1 => cases h
    case h_2 hfind =>
      split at h
      case h_1 => cases h
      case h_2 i hfree =>
        cases h
        exact ⟨by simpa using hs, hfind, i, freeEntry_some hfree, rfl⟩

/-- A start that succeeds: the block was Halted and not started, and is now Running and started (R335). -/
theorem start_done {s t : State} (h : start s = .done t) :
    s.status = .halted ∧ s.started = false ∧ t = { s with status := .running, started := true } := by
  rw [start] at h
  split at h
  case isTrue hs => cases h; exact ⟨hs.1, hs.2, rfl⟩
  case isFalse => cases h

/-- No two valid entries of the table hold the same selector (R51). -/
def UniqueSelectors (T : DeviceTable) : Prop :=
  ∀ (i j : Fin 16) (e f : DeviceEntry), T[i] = some e → T[j] = some f → e.sel = f.sel → i = j

/-- An entry with a selector that no valid entry holds keeps the selectors unique (R51, R261). -/
theorem UniqueSelectors.set {T : DeviceTable} (hT : UniqueSelectors T) (k : Fin 16) {e : DeviceEntry}
    (hnew : ∀ (i : Fin 16) (f : DeviceEntry), T[i] = some f → f.sel ≠ e.sel) :
    UniqueSelectors (T.set k (some e)) := by
  intro i j f g hi hj hfg
  rw [DeviceTable.getElem_set] at hi hj
  split at hi <;> split at hj
  · exact Eq.trans (Eq.symm ‹k = i›) ‹k = j›
  · cases hi; exact absurd hfg.symm (hnew j g hj)
  · cases hj; exact absurd hfg (hnew i f hi)
  · exact hT i j f g hi hj hfg

theorem register_keeps_inv {pick : Fin 16} {sel : Byte} {dev : Nat} {s t : State} (hs : s.Inv)
    (h : register pick sel dev s = .done t) : t.Inv := by
  obtain ⟨-, hfind, k, -, rfl⟩ := register_done h
  have hunique : UniqueSelectors s.devices := hs.selectorsUnique
  exact { hs with selectorsUnique := hunique.set k ((findDevice_eq_none _ _).1 hfind) }

/-- A Halted block has no fault on record, and neither has the Running block that `start` makes of it. -/
theorem start_keeps_inv {s t : State} (hs : s.Inv) (h : start s = .done t) : t.Inv := by
  obtain ⟨hhalted, -, rfl⟩ := start_done h
  have hnone := hs.faultRecord
  rw [hhalted] at hnone
  exact { hs with faultRecord := by simpa using hnone, startedFirst := fun _ => rfl }

/-- Settles O53. -/
theorem hostOperationsKeepInvariant : Obligations.HostOperationsKeepInvariant :=
  ⟨fun _ _ _ _ _ => register_keeps_inv, fun _ _ => start_keeps_inv⟩

end Sys2Proof.Machine
end

section
/-! PROOF. The two memories (spec/20_memory.md R82, R86, R94): RAM under a tick, and the image in ROM after `init`. -/

namespace Sys2Proof.Machine

open Sys2Proof

/-! ### RAM under a tick (R86, R94) -/

/-- Settles O22: an instruction or a fault makes `Changes`, whose `ev` has the events with the RAM that replays them; a
halt adds no event and leaves RAM. -/
theorem ramChangesOnlyByRecordedWrites : Obligations.RamChangesOnlyByRecordedWrites := by
  intro s t h
  obtain hc | ⟨-, rfl⟩ := step_changes h
  · obtain ⟨es, hevents, hram, -⟩ := hc.ev
    exact ⟨es, hevents, hram⟩
  · exact ⟨[], (List.append_nil s.events).symm, rfl⟩

/-! ### The image in ROM (R82, R330) -/

theorem bytes_of_legalWidth {n : Nat} {W : Width} (h : legalWidth n = some W) : W.bytes = n := by
  unfold legalWidth at h
  split at h <;> cases h <;> rfl

/-- The block that `init` makes of an image and a word width (R330). -/
def initialBlock (l : Launch) (W : Width) (image : List Byte) : State :=
  { State.reset with
    W := W, rom := Memory.ofBytes 0 image, diagPort := l.diagPort, deviceReplies := l.deviceReplies }

/-- An `init` that gives a block: its width is legal, and its image was read and fits in ROM (R330, R331). -/
theorem init_ready {l : Launch} {s : State} (h : init l = .ready s) :
    ∃ W image, legalWidth l.W = some W ∧ l.image = some image ∧ image.length ≤ addressSpace W ∧
      s = initialBlock l W image := by
  rw [init] at h
  split at h
  case h_1 => cases h
  case h_2 => cases h
  case h_3 W image hW himage =>
    split at h <;> cases h
    exact ⟨W, image, hW, himage, ‹_›, rfl⟩

theorem initialBlock_inv (l : Launch) {W : Width} {image : List Byte} (hfit : image.length ≤ addressSpace W) :
    (initialBlock l W image).Inv := by
  have hreset : State.reset.Inv := resetMeetsInvariant
  obtain ⟨hform, hrange⟩ := Memory.ofBytes_wf 0 image
  have hbelow : ∀ c ∈ Memory.ofBytes 0 image, c.1 < addressSpace W := by
    intro c hc
    have := (hrange c hc).2
    omega
  exact { hreset with
    romForm := hform
    ramRange := fun _ hc => absurd hc List.not_mem_nil
    romRange := hbelow
    pcBound := Nat.zero_le _ }

/-- Settles O56: such a block differs from the reset state, which meets the invariant, in its width, its inputs and the
image, which lies below `M`. -/
theorem initLoadsImageAndMeetsInvariant : Obligations.InitLoadsImageAndMeetsInvariant := by
  intro l s image h himage
  obtain ⟨W, image', hW, himage', hfit, rfl⟩ := init_ready h
  cases himage.symm.trans himage'
  have hread (a : Nat) : (Memory.ofBytes 0 image).read a = image.getD a 0 :=
    (Memory.read_ofBytes 0 image a).trans (if_pos a.zero_le)
  exact ⟨hread, bytes_of_legalWidth hW, initialBlock_inv l hfit, rfl⟩

end Sys2Proof.Machine
end

section
/-! PROOF. Decoding and encoding are inverse (spec/30_encoding.md R120, R123, R124, R127, R130, R132): the fields of an
instruction byte, what decoding reads from a byte sequence, and the two directions. -/

namespace Sys2Proof

/-! ### The fields of an instruction byte (R120, R121, R122) -/

@[simp] theorem widthOfCode_code (w : Width) : widthOfCode w.code = w := by cases w <;> rfl

@[simp] theorem itemOfCode_code (item : DiagItem) : itemOfCode item.code = item := by cases item <;> rfl

@[simp] theorem code_widthOfCode : ∀ k : BitVec 2, (widthOfCode k).code = k := by decide

@[simp] theorem code_itemOfCode : ∀ k : BitVec 2, (itemOfCode k).code = k := by decide

theorem widthOfCode_bytes : ∀ k : BitVec 2, (widthOfCode k).bytes = k.toNat + 1 := by decide

@[simp] theorem instrByte_continuationBit : ∀ skip k op, (instrByte skip k op)[7] = true := by decide

@[simp] theorem instrByte_skipBit : ∀ skip k op, (instrByte skip k op)[6] = skip := by decide

@[simp] theorem instrByte_widthCode : ∀ skip k op, (instrByte skip k op).extractLsb' 4 2 = k := by decide

@[simp] theorem instrByte_opcode : ∀ skip k op, (instrByte skip k op).extractLsb' 0 4 = op := by decide

theorem instrByte_toNat : ∀ skip k op,
    (instrByte skip k op).toNat = 128 + skip.toNat * 64 + k.toNat * 16 + op.toNat := by decide

@[simp] theorem haltByte_continuationBit : ∀ x : BitVec 7, (0#1 ++ x)[7] = false := by decide

@[simp] theorem haltByte_ignored : ∀ x : BitVec 7, (0#1 ++ x).extractLsb' 0 7 = x := by decide

theorem haltByte_toNat : ∀ x : BitVec 7, (0#1 ++ x).toNat = x.toNat := by decide

/-- A byte has a skip bit, a width code and an opcode, or it is a halt byte: bit 7 tells which. -/
theorem byte_cases (b : Byte) : (∃ skip k op, b = instrByte skip k op) ∨ ∃ x : BitVec 7, b = 0#1 ++ x := by
  have hinstr : ∀ b : Byte, b[7] = true → b = instrByte b[6] (b.extractLsb' 4 2) (b.extractLsb' 0 4) := by decide
  have hhalt : ∀ b : Byte, b[7] = false → b = 0#1 ++ b.extractLsb' 0 7 := by decide
  cases h : b[7]
  · exact .inr ⟨_, hhalt b h⟩
  · exact .inl ⟨_, _, _, hinstr b h⟩

/-! ### How many immediate bytes an instruction byte announces (R123) -/

@[simp] theorem immLength_instrByte (skip : Bool) (k : BitVec 2) (op : BitVec 4) :
    immLength (instrByte skip k op) = if op = 13 then (widthOfCode k).bytes else 0 := by
  simp [immLength]

@[simp] theorem immLength_haltByte (x : BitVec 7) : immLength (0#1 ++ x) = 0 := by
  simp [immLength]

/-- The announced length by arithmetic on the byte's value. -/
theorem immLength_eq (b : Byte) :
    immLength b = if 0x80 ≤ b.toNat ∧ b.toNat % 16 = 13 then b.toNat / 16 % 4 + 1 else 0 := by
  obtain ⟨skip, k, op, rfl⟩ | ⟨x, rfl⟩ := byte_cases b
  · have hop : op = 13 ↔ op.toNat = 13 := BitVec.toNat_inj.symm
    have hskip := skip.toNat_le
    rw [immLength_instrByte, instrByte_toNat, widthOfCode_bytes]
    simp only [hop]
    split <;> split <;> omega
  · rw [immLength_haltByte, haltByte_toNat, if_neg (by omega)]

/-! ### What decoding reads (R123, R124) -/

/-- Decoding reads an instruction byte and the immediate bytes it announces, and no more. -/
theorem decode_eq_instr_iff {bs rest : List Byte} {i : Instr} :
    decode bs = .instr i rest ↔
      ∃ ib imm, bs = ib :: imm ++ rest ∧ imm.length = immLength ib ∧ i = decodeByte ib (bigEndian imm) := by
  constructor
  · intro h
    cases bs with
    | nil => cases h
    | cons ib bs =>
      rw [decode] at h
      split at h <;> cases h
      exact ⟨ib, bs.take (immLength ib), by simp, by simpa, rfl⟩
  · rintro ⟨ib, imm, rfl, himm, rfl⟩
    simp [decode, ← himm]

theorem decodes_iff {ib : Byte} {bs : List Byte} :
    (∃ i rest, decode (ib :: bs) = .instr i rest) ↔ immLength ib ≤ bs.length := by
  rw [decode]
  split <;> simp [*]

/-! ### Encoding writes what decoding reads, and the other way round (R127, R132) -/

/-- A well-formed instruction is encoded as a byte that decodes to it, with the immediate bytes this byte announces. -/
theorem encode_eq_cons {i : Instr} (h : i.wf = true) :
    ∃ ib imm, encode i = ib :: imm ∧ imm.length = immLength ib ∧ i = decodeByte ib (bigEndian imm) := by
  cases i
  case lit skip w imm =>
    have hlt : imm.toNat < 256 ^ w.bytes := by simpa [Instr.wf, two_pow_eight_mul] using h
    exact ⟨_, _, rfl, by simp, by simp [decodeByte, bigEndian_bytesOf, Nat.mod_eq_of_lt hlt]⟩
  all_goals exact ⟨_, [], rfl, by simp, by simp [decodeByte]⟩

/-- The literal assembled from `w` bytes is encoded with these bytes. -/
theorem wf_and_encode_lit (skip : Bool) {w : Width} {imm : List Byte} (h : imm.length = w.bytes) :
    (Instr.lit skip w (BitVec.ofNat 32 (bigEndian imm))).wf = true ∧
      encode (.lit skip w (BitVec.ofNat 32 (bigEndian imm))) = instrByte skip w.code 13 :: imm := by
  have hlt := bigEndian_lt imm
  have hle : 256 ^ imm.length ≤ 256 ^ 4 := Nat.pow_le_pow_right (by decide) (h ▸ w.bytes_le)
  have himm : (BitVec.ofNat 32 (bigEndian imm)).toNat = bigEndian imm := by
    rw [BitVec.toNat_ofNat]; omega
  rw [Instr.wf, encode, himm, two_pow_eight_mul, ← h, bytesOf_bigEndian]
  exact ⟨decide_eq_true hlt, rfl⟩

/-- An instruction byte of any other opcode is the whole encoding of what it decodes to. -/
theorem wf_and_encode_of_opcode_ne_lit (skip : Bool) (k : BitVec 2) {op : BitVec 4} (hop : op ≠ 13) (n : Nat) :
    (decodeByte (instrByte skip k op) n).wf = true ∧
      encode (decodeByte (instrByte skip k op) n) = [instrByte skip k op] := by
  obtain ⟨⟨m, hm⟩⟩ := op
  interval_cases m
  pick_goal 14 -- opcode 13, the literal
  · exact absurd rfl hop
  all_goals simp [decodeByte, Instr.wf, encode]

theorem wf_and_encode_decodeByte {ib : Byte} {imm : List Byte} (h : imm.length = immLength ib) :
    (decodeByte ib (bigEndian imm)).wf = true ∧ encode (decodeByte ib (bigEndian imm)) = ib :: imm := by
  obtain ⟨skip, k, op, rfl⟩ | ⟨x, rfl⟩ := byte_cases ib
  · rw [immLength_instrByte] at h
    by_cases hop : op = 13
    · subst hop
      rw [if_pos rfl] at h
      simpa [decodeByte] using wf_and_encode_lit skip h
    · rw [if_neg hop] at h
      obtain rfl := List.eq_nil_of_length_eq_zero h
      exact wf_and_encode_of_opcode_ne_lit skip k hop _
  · obtain rfl : imm = [] := by simpa using h
    simp [decodeByte, encode, Instr.wf]

/-! ### The statements -/

/-- Settles O1: an encoding is a byte with the immediate bytes it announces, which is what decoding reads. -/
theorem decodeEncodeRoundTrip : Obligations.DecodeEncodeRoundTrip := by
  intro i rest hwf
  obtain ⟨ib, imm, henc, himm, hi⟩ := encode_eq_cons hwf
  exact decode_eq_instr_iff.2 ⟨ib, imm, by rw [henc], himm, hi⟩

/-- Settles O2: the bytes decoding reads are encoded again as themselves. -/
theorem decodedBytesAreTheEncoding : Obligations.DecodedBytesAreTheEncoding := by
  intro bs i rest h
  obtain ⟨ib, imm, rfl, himm, rfl⟩ := decode_eq_instr_iff.1 h
  obtain ⟨hwf, henc⟩ := wf_and_encode_decodeByte himm
  exact ⟨hwf, by rw [henc]⟩

/-- Settles O3: only the announced immediate bytes can be missing, and `immLength_eq` counts them. -/
theorem everyByteValueDecodes : Obligations.EveryByteValueDecodes := by
  intro ib rest
  rw [decodes_iff, immLength_eq]

/-- Settles O4. -/
theorem sampleWordsDecode : Obligations.SampleWordsDecode := by
  unfold Obligations.SampleWordsDecode
  decide

end Sys2Proof
end

section
/-! PROOF. The tick (spec/40_cycle.md R150 to R153, R157, R161): what the ROM bytes at `pc` decode to is what the tick
fetches, and the ways a tick ends without executing an instruction other than a halt. -/

namespace Sys2Proof.Machine

open Sys2Proof

/-! ### The fetch and the decoder (R123, R151, R152) -/

/-- Decoding a stretch of memory reads the byte at its start and the immediate bytes this byte announces. -/
theorem decode_bytes (m : Memory) (a n : Nat) :
    decode (m.bytes a (n + 1)) =
      if immLength (m.read a) ≤ n then
        .instr (decodeByte (m.read a) (bigEndian (m.bytes (a + 1) (immLength (m.read a)))))
          ((m.bytes (a + 1) n).drop (immLength (m.read a)))
      else .refused .truncatedLiteral := by
  rw [Memory.bytes, decode, Memory.bytes_length]
  split
  · rw [Memory.bytes_take _ _ _ _ ‹_›]
  · rfl

/-- The ROM bytes from `pc` on decode to the instruction fetched, where the announced immediate ends below `M`; five
bytes are always enough. -/
theorem decode_rom_at_pc {s : State} (hp : s.pc.toNat < addressSpace s.W) :
    decode (s.rom.bytes s.pc.toNat (min 5 (addressSpace s.W - s.pc.toNat))) =
      if s.pc.toNat + 1 + immLength (s.rom.read s.pc.toNat) ≤ addressSpace s.W then
        .instr (fetched s) ((s.rom.bytes (s.pc.toNat + 1) (min 5 (addressSpace s.W - s.pc.toNat) - 1)).drop
          (immLength (s.rom.read s.pc.toNat)))
      else .refused .truncatedLiteral := by
  have hle := immLength_le (s.rom.read s.pc.toNat)
  obtain ⟨n, hn⟩ : ∃ n, min 5 (addressSpace s.W - s.pc.toNat) = n + 1 :=
    ⟨_, (Nat.sub_add_cancel (by omega)).symm⟩
  have hfits : immLength (s.rom.read s.pc.toNat) ≤ n ↔
      s.pc.toNat + 1 + immLength (s.rom.read s.pc.toNat) ≤ addressSpace s.W := by omega
  simp only [hn, decode_bytes, hfits, Nat.add_sub_cancel, fetched]

/-- Settles O5: what the bytes decode to is the instruction fetched. -/
theorem stepRunsDecodedInstruction : Obligations.StepRunsDecodedInstruction := by
  intro s i rest hr hp hdec
  rw [decode_rom_at_pc hp] at hdec
  split at hdec <;> cases hdec
  exact step_in s hr hp

/-- Bit 6 of a byte by arithmetic on its value (R120). -/
theorem skipBit_iff (b : Byte) : b.getLsbD 6 = true ↔ b.toNat / 64 % 2 = 1 := by
  simp [BitVec.getLsbD, Nat.testBit_eq_decide_div_mod_eq]

/-- Settles O6: only a literal announces immediate bytes that can be cut off, and its range check fails. -/
theorem literalPastTopOfRomPanics : Obligations.LiteralPastTopOfRomPanics := by
  intro s why D₁ hr hp hdec hD
  obtain rfl := hD.unique s.D.pop_after
  rw [decode_rom_at_pc hp] at hdec
  split at hdec <;> cases hdec
  rename_i hcut
  obtain ⟨hlit, hlen⟩ := decodeByte_of_immLength (s.rom.read s.pc.toNat) (by omega)
    (bigEndian (s.rom.bytes (s.pc.toNat + 1) (immLength (s.rom.read s.pc.toNat))))
  have hsucc := pc_succ_toNat hp
  rw [step_in s hr hp, fetched, hlit, exec_lit_past_rom _ _ _ _ (by simp only; omega)]
  simp only [← skipBit_iff]
  cases (s.rom.read s.pc.toNat).getLsbD 6 <;> rfl

/-! ### A block that is not Running, and a fetch outside ROM (R150, R151) -/

/-- A run makes its first step and goes on from there. -/
theorem run_succ_of_step (M : Host.Core) {s t : M.State} (n : Nat) (h : M.step s = .next t) :
    M.run (n + 1) s = M.run n t := by
  rw [Host.Core.run, h]

/-- Settles O7, by induction on the number of ticks. -/
theorem terminalStatusKeepsState : Obligations.TerminalStatusKeepsState := by
  intro n s hs
  induction n with
  | zero => rfl
  | succ n ih => exact (run_succ_of_step core n (step_not s hs)).trans ih

/-- Settles O8. -/
theorem fetchOutsideRomPanics : Obligations.FetchOutsideRomPanics := by
  intro s hr hp
  rw [step_running s hr, fetchInstr_out s hp]
  rfl

/-! ### Halting (R153, R161) -/

/-- The halt bytes are the bytes with bit 7 clear. -/
theorem haltByte_iff (b : Byte) : b.toNat < 0x80 ↔ ∃ x : BitVec 7, b = 0#1 ++ x := by
  constructor
  · intro hb
    obtain ⟨skip, k, op, rfl⟩ | hx := byte_cases b
    · rw [instrByte_toNat] at hb; omega
    · exact hx
  · rintro ⟨x, rfl⟩
    rw [haltByte_toNat]; omega

/-- A byte decodes to a halt exactly where its bit 7 is clear. -/
theorem isHalt_decodeByte (b : Byte) (n : Nat) : isHalt (decodeByte b n) = true ↔ b.toNat < 0x80 := by
  constructor
  · intro h
    obtain ⟨skip, k, op, rfl⟩ | ⟨x, rfl⟩ := byte_cases b
    · have hbit : (instrByte skip k op).getLsbD 7 = true := by simp
      rw [decodeByte, if_pos hbit] at h
      dsimp only at h
      split at h <;> cases h
    · exact (haltByte_iff _).2 ⟨x, rfl⟩
  · intro hb
    rw [decodeByte_halt b hb]; rfl

/-- Settles O9: such a byte decodes to a halt, whatever its bit 6 is. -/
theorem haltByteHalts : Obligations.HaltByteHalts := by
  refine ⟨fun s hr hp hb => ?_, fun _ _ => rfl, fun b => ?_, rfl⟩
  · rw [step_in s hr hp, fetched, decodeByte_halt _ hb]; rfl
  · rw [haltByte_iff]
    simp only [encode, List.cons.injEq, and_true, eq_comm]

/-- An instruction other than a halt leaves a Running block Running or takes a fault. -/
theorem exec_status_ne_halted {i : Instr} {s t : State} (hi : isHalt i = false) (hr : s.status = .running)
    (h : exec i s = .next t) : t.status ≠ .halted := by
  obtain ⟨hkeep, -⟩ | ⟨hpanic, -⟩ := (Changes.exec hi h).st
  · simp [hkeep, hr]
  · simp [hpanic]

/-- Settles O10: of a Running block's ticks, only one that executes a halt ends Halted. -/
theorem haltsExactlyOnHaltByte : Obligations.HaltsExactlyOnHaltByte := by
  intro s t hr h
  obtain ⟨hr', -⟩ | ⟨-, hp, rfl⟩ | ⟨-, hp, h⟩ := step_cases h
  · exact absurd hr hr'
  · simp only [State.raise_status, reduceCtorEq, false_iff]; omega
  · rw [← isHalt_decodeByte, ← fetched]
    by_cases hi : isHalt (fetched s) = true
    · simp [exec_halt_eq hi h, hp, hi]
    · have hne : t.status ≠ .halted :=
        exec_status_ne_halted (s := { s with pc := s.pc + 1 }) (by simpa using hi) hr h
      simp [hne, hi]

end Sys2Proof.Machine
end

section
/-! PROOF. The skip-flagged forms of all instructions (spec/40_cycle.md R155, R156, R157, R163): executed, each is its
unflagged form below the condition byte; suppressed, a literal alone does more than consume that byte. -/

namespace Sys2Proof.Machine

open Sys2Proof

/-! ### Executed: no effect reads or writes the latch -/

/-- An effect carries the skip-flag latch along unread. -/
def CarriesLatch (effect : State → Result) : Prop :=
  ∀ (l : SkipLatch) (s : State), effect (s.setSkip l) = mapNext (State.setSkip l) (effect s)

theorem storeAt_setSkip (a n v : Nat) (l : SkipLatch) (s : State) :
    storeAt a n v (s.setSkip l) = (storeAt a n v s).setSkip l := by
  rw [storeAt_eq, storeAt_eq, State.setSkip_W]
  split <;> rfl

theorem loadFrom_setSkip (a n : Nat) (l : SkipLatch) (s : State) :
    loadFrom a n (s.setSkip l) = (loadFrom a n s).setSkip l := by
  rw [loadFrom_eq, loadFrom_eq, State.setSkip_W]
  split <;> rfl

theorem deviceReturns_setSkip (i : Fin 16) (sel : Byte) (writes : List Host.Cell) (r : Byte) (l : SkipLatch)
    (s : State) : deviceReturns i sel writes r (s.setSkip l) = (deviceReturns i sel writes r s).setSkip l := by
  simp only [deviceReturns, ramWriteCells_eq]
  rfl

theorem storeEffect_carriesLatch (w : Width) : CarriesLatch (storeEffect w) :=
  fun l _ => congrArg Host.Outcome.next (storeAt_setSkip _ w.bytes _ l (State.setD _ (State.setD _ _)))

theorem loadEffect_carriesLatch (w : Width) : CarriesLatch (loadEffect w) :=
  fun l _ => congrArg Host.Outcome.next (loadFrom_setSkip _ w.bytes l (State.setD _ _))

theorem literal_carriesLatch (w : Width) (v : Nat) : CarriesLatch (immediateFetch w (pushResult w.bytes v)) := by
  intro l s
  rw [immediateFetch, immediateFetch, State.setSkip_pc, State.setSkip_W]
  split <;> rfl

theorem diagEffect_carriesLatch (item : DiagItem) : CarriesLatch (diagEffect item) := by
  intro l s
  rw [diagEffect, diagEffect, State.setSkip_diagPort]
  split <;> rfl

/-- The dispatch of selectors: each call gets the same answer and does the same. -/
theorem callDevices_carriesLatch (sels : List Byte) : CarriesLatch (callDevices sels) := by
  intro l s
  induction sels generalizing s with
  | nil => rfl
  | cons sel rest ih =>
    have hreply (dev : Nat) : nextReply dev sel (s.setSkip l) = nextReply dev sel s := rfl
    rw [callDevices, callDevices, State.setSkip_devices, State.setSkip_W]
    cases findDevice s.devices sel with
    | none => rfl
    | some found =>
      simp only [hreply]
      cases nextReply found.2.dev sel s with
      | hangs => rfl
      | breaksContract => rfl
      | returns writes r =>
        dsimp only
        split
        · rw [deviceReturns_setSkip, ih]
        · rfl

theorem devEffect_carriesLatch (w : Width) : CarriesLatch (devEffect w) :=
  fun l _ => callDevices_carriesLatch _ l (State.setD _ _)

/-- With a nonzero condition byte, predication gives the unflagged form's answer below that byte, but for the latch. -/
theorem predicated_taken_eq_unflagged {effect suppressed : State → Result} (he : CarriesLatch effect) {s : State}
    (h : s.D.peek 0 ≠ 0) :
    predicated true effect suppressed s =
      mapNext (State.setSkip { flag := true, exec := true })
        (predicated false effect suppressed (s.setD s.D.pop.2)) := by
  rw [predicated_taken _ _ _ h, predicated_false, ← he]
  rfl

/-- Settles O11. The instructions of the last case move stack bytes and `pc` alone. -/
theorem skipFlaggedExecutesAsUnflagged : Obligations.SkipFlaggedExecutesAsUnflagged := by
  intro i s D₁ hi hc hD
  obtain rfl := hD.unique s.D.pop_after
  cases i
  case halt => cases hi
  case store skip w => exact predicated_taken_eq_unflagged (storeEffect_carriesLatch w) hc
  case load skip w => exact predicated_taken_eq_unflagged (loadEffect_carriesLatch w) hc
  case lit skip w imm => exact predicated_taken_eq_unflagged (literal_carriesLatch w imm.toNat) hc
  case dev skip w => exact predicated_taken_eq_unflagged (devEffect_carriesLatch w) hc
  case diag skip item => exact predicated_taken_eq_unflagged (diagEffect_carriesLatch item) hc
  all_goals exact predicated_taken_eq_unflagged (fun _ _ => rfl) hc

/-! ### Suppressed -/

/-- Settles O12: what is left of a suppressed instruction other than a literal is nothing. -/
theorem suppressedInstructionOnlyPopsCondition : Obligations.SuppressedInstructionOnlyPopsCondition := by
  intro i s D₁ hi hlit hc hD
  obtain rfl := hD.unique s.D.pop_after
  cases i
  case halt => cases hi
  case lit => cases hlit
  all_goals exact predicated_suppressed _ suppressedEffect s hc

/-- Settles O13: what is left of a suppressed literal is its immediate fetch, with the range check. -/
theorem suppressedLiteralPassesImmediate : Obligations.SuppressedLiteralPassesImmediate := by
  intro w imm s D₁ hc hD
  obtain rfl := hD.unique s.D.pop_after
  have hexec : exec (.lit true w imm) s =
      immediateFetch w id { s with D := s.D.pop.2, skip := { flag := true, exec := false } } :=
    predicated_suppressed _ _ s hc
  refine ⟨fun hin => ?_, fun hout => ?_⟩
  · rw [hexec, immediateFetch, if_pos hin]; rfl
  · rw [exec_lit_past_rom true w imm s hout, latchCondition_true, hc]; rfl

end Sys2Proof.Machine
end

section
/-! PROOF. Arithmetic and logic (spec/41_alu.md R180 to R184): what each effect takes from and puts on the data stack,
said once for the instructions with two operands and once for `shift`. An instruction without the skip bit performs its
effect on `latchCondition false s` (R156). -/

namespace Sys2Proof.Machine

open Sys2Proof

/-- The fields of an instruction byte `1 s k k o o o o` as a sum (R120, R132). -/
theorem instrByte_eq_opcodeByte (w : Width) :
    ∀ skip op, instrByte skip w.code op = opcodeByte skip w op.toNat := by
  cases w <;> decide

/-! ### Two operands (R126, R179) -/

/-- A result of `m` bytes takes the place of the two operands of `n` bytes it is made of. -/
theorem withTwoOperands_pushResult_spec (n m : Nat) (f : Nat → Nat → Nat) (s : State) (hn : 2 * n ≤ 256)
    (hm : m ≤ 256) :
    ∃ D', s.D.After (2 * n) m (f (s.D.value n n) (s.D.value 0 n)) D' ∧
      withTwoOperands n (fun a b => pushResult m (f a b)) s = s.setD D' := by
  obtain ⟨D₁, hpops, heq⟩ := withTwoOperands_spec n (fun a b => pushResult m (f a b)) s hn
  rw [heq]
  exact pushResult_spec (2 * n) m _ s D₁ hm hpops

theorem binaryEffect_spec (w : Width) (f : Nat → Nat → Nat) (s : State) :
    ∃ D', s.D.After (2 * w.bytes) w.bytes (f (s.D.value w.bytes w.bytes) (s.D.value 0 w.bytes)) D' ∧
      binaryEffect w f s = .next (s.setD D') := by
  have hw := w.bytes_le
  obtain ⟨D', hafter, heq⟩ := withTwoOperands_pushResult_spec w.bytes w.bytes f s (by omega) (by omega)
  exact ⟨D', hafter, congrArg Host.Outcome.next heq⟩

/-- Settles O24. -/
theorem addPushesWrappedSum : Obligations.AddPushesWrappedSum :=
  fun w => ⟨fun skip => congrArg ([·]) (instrByte_eq_opcodeByte w skip 0), fun s =>
    binaryEffect_spec w (fun a b => (a + b) % 2 ^ (8 * w.bytes)) (latchCondition false s)⟩

/-- Settles O25: the bitwise and is no larger than the operand `b`, which has `w` bytes. -/
theorem andPushesBitwiseAnd : Obligations.AndPushesBitwiseAnd :=
  fun w => ⟨fun skip => congrArg ([·]) (instrByte_eq_opcodeByte w skip 1), fun s =>
    ⟨Nat.and_lt_two_pow _ (value_lt_addressSpace s.D 0 w),
      binaryEffect_spec w (fun a b => a &&& b) (latchCondition false s)⟩⟩

/-- Settles O26. -/
theorem xorPushesExclusiveOr : Obligations.XorPushesExclusiveOr :=
  fun w => ⟨fun skip => congrArg ([·]) (instrByte_eq_opcodeByte w skip 2), fun s =>
    binaryEffect_spec w (fun a b => a ^^^ b) (latchCondition false s)⟩

/-! ### `compare` (R184) -/

/-- Pushing one byte is pushing its value in one byte (R38, R42). -/
theorem Stack.push_eq_pushN_one (b : Byte) (S : Stack) : S.push b = S.pushN 1 b.toNat := by
  have hb : byteOf 0 b.toNat = b := by simp [byteOf]
  simp [Stack.pushN, bytesOf, Stack.pushBytes, hb]

theorem compareByte_toNat (a b : Nat) :
    (compareByte a b).toNat = if a > b then 1 else if a < b then 255 else 0 := by
  rw [compareByte]
  split
  · rfl
  · split <;> rfl

theorem compareEffect_spec (w : Width) (s : State) :
    ∃ D', s.D.After (2 * w.bytes) 1
        (if s.D.value w.bytes w.bytes > s.D.value 0 w.bytes then 1
         else if s.D.value w.bytes w.bytes < s.D.value 0 w.bytes then 255 else 0) D' ∧
      compareEffect w s = .next (s.setD D') := by
  have hw := w.bytes_le
  obtain ⟨D', hafter, heq⟩ := withTwoOperands_pushResult_spec w.bytes 1 (fun a b => (compareByte a b).toNat) s
    (by omega) (by omega)
  refine ⟨D', compareByte_toNat _ _ ▸ hafter, ?_⟩
  simp only [compareEffect, Stack.push_eq_pushN_one]
  exact congrArg Host.Outcome.next heq

/-- Settles O28. -/
theorem comparePushesOneByte : Obligations.ComparePushesOneByte :=
  fun w => ⟨fun skip => congrArg ([·]) (instrByte_eq_opcodeByte w skip 5), fun s =>
    compareEffect_spec w (latchCondition false s)⟩

/-! ### `shift` (R183) -/

/-- The shifts as a division and a multiplication. -/
theorem shiftValue_eq (ctl : Byte) (n : Nat) :
    shiftValue ctl n = n / 2 ^ (ctl.toNat % 16) * 2 ^ (ctl.toNat / 16) := by
  rw [shiftValue, Nat.shiftLeft_eq, Nat.shiftRight_eq_div_pow]

/-- The control byte and the value below it give way to the shifted value, of which the push keeps `w` bytes. -/
theorem shiftEffect_spec (w : Width) (s : State) :
    ∃ D', s.D.After (w.bytes + 1) w.bytes (shiftValue (s.D.peek 0) (s.D.value 1 w.bytes) % 2 ^ (8 * w.bytes)) D' ∧
      shiftEffect w s = .next (s.setD D') := by
  have hw := w.bytes_le
  have hctl := s.D.pop_after
  obtain ⟨D₁, hval, heq⟩ := withOperand_spec w.bytes (fun n => pushResult w.bytes (shiftValue s.D.pop.1 n))
    (s.setD s.D.pop.2) (by omega)
  have hpops : s.D.After (w.bytes + 1) 0 0 D₁ := Nat.add_comm 1 _ ▸ hctl.pops hval
  have hn : s.D.pop.2.value 0 w.bytes = s.D.value 1 w.bytes := hctl.value 0 w.bytes (by omega)
  have hpush := hpops.push (Stack.pushN_after w.bytes (shiftValue (s.D.peek 0) (s.D.value 1 w.bytes)) D₁ (by omega))
  refine ⟨_, hpush.congr ?_, ?_⟩
  · rw [two_pow_eight_mul, Nat.mod_mod]
  · rw [shiftEffect, heq, State.setD_D, hn]; rfl

/-- Settles O27. -/
theorem shiftPushesShiftedValue : Obligations.ShiftPushesShiftedValue := by
  refine fun w => ⟨fun skip => congrArg ([·]) (instrByte_eq_opcodeByte w skip 3), fun s => ?_⟩
  rw [← shiftValue_eq]
  exact shiftEffect_spec w (latchCondition false s)

end Sys2Proof.Machine
end

section
/-! PROOF. Stack manipulation (spec/42_stack.md R200 to R204): where each byte of a popped value stood, and what each
effect makes of the two stacks. -/

namespace Sys2Proof.Machine

open Sys2Proof

/-- The bytes of a value are the slots it stands in: `k` slots above its deepest one is the byte that `push_n` puts `k`
slots above its own (R42, R43). -/
theorem Stack.byteOf_value_eq_slot (S : Stack) (d n : Nat) (k : BitVec 8) (h : k.toNat < n) :
    byteOf (n - 1 - k.toNat) (S.value d n) = S.slot (S.p - BitVec.ofNat 8 (d + n) + k) := by
  rw [S.byteOf_value d n _ (by omega), Stack.peek]
  congr 1
  bv_omega

/-- Two values of a stack, pushed again one on the other over `m` popped bytes: from the new bottom up, the slots of the
first and then those of the second take the bytes of the value pushed there, and no byte of a value changes its place
within it. -/
theorem Stack.After.push_push_value {S T : Stack} {m b d e : Nat} (h : S.After m 0 0 T) (hb : 2 * b ≤ 256) :
    ((T.pushN b (S.value d b)).pushN b (S.value e b)).p = S.p - BitVec.ofNat 8 m + BitVec.ofNat 8 (2 * b) ∧
    ∀ i : BitVec 8, ((T.pushN b (S.value d b)).pushN b (S.value e b)).slot i =
      if (i - (S.p - BitVec.ofNat 8 m)).toNat < b then S.slot (i + BitVec.ofNat 8 m - BitVec.ofNat 8 (d + b))
      else if (i - (S.p - BitVec.ofNat 8 m)).toNat < 2 * b then
        S.slot (i + BitVec.ofNat 8 m - BitVec.ofNat 8 (e + b) - BitVec.ofNat 8 b)
      else if (i - (S.p - BitVec.ofNat 8 m)).toNat < m then 0 else S.slot i := by
  obtain ⟨hp, hslot⟩ := (h.push (T.pushN_after b (S.value d b) (by omega))).push_push
    ((T.pushN b (S.value d b)).pushN_after b (S.value e b) (by omega)) hb
  refine ⟨hp, fun i => (hslot i).trans ?_⟩
  generalize hk : i - (S.p - BitVec.ofNat 8 m) = k
  obtain rfl : i = S.p - BitVec.ofNat 8 m + k := by rw [← hk]; ring
  by_cases hlow : k.toNat < b
  · rw [if_pos hlow, if_pos hlow, S.byteOf_value_eq_slot d b k hlow]
    congr 1; ring
  · rw [if_neg hlow, if_neg hlow]
    by_cases hhigh : k.toNat < 2 * b
    · have hsub : (k - BitVec.ofNat 8 b).toNat = k.toNat - b := by bv_omega
      have hdepth : 2 * b - 1 - k.toNat = b - 1 - (k - BitVec.ofNat 8 b).toNat := by omega
      rw [if_pos hhigh, if_pos hhigh, hdepth, S.byteOf_value_eq_slot e b _ (by omega)]
      congr 1; ring
    · rw [if_neg hhigh, if_neg hhigh]

/-! ### `swap` (R200) -/

theorem swapEffect_spec (w : Width) (s : State) :
    ∃ D', D'.p = s.D.p ∧
      (∀ i : BitVec 8, D'.slot i =
        if (i - (s.D.p - BitVec.ofNat 8 (2 * w.bytes))).toNat < w.bytes then s.D.slot (i + BitVec.ofNat 8 w.bytes)
        else if (i - (s.D.p - BitVec.ofNat 8 (2 * w.bytes))).toNat < 2 * w.bytes then
          s.D.slot (i - BitVec.ofNat 8 w.bytes)
        else s.D.slot i) ∧
      swapEffect w s = .next (s.setD D') := by
  have hw := w.bytes_le
  obtain ⟨D₁, hpops, heq⟩ := withTwoOperands_spec w.bytes
    (fun a b t => pushResult w.bytes a (pushResult w.bytes b t)) s (by omega)
  obtain ⟨hp, hslot⟩ := hpops.push_push_value (b := w.bytes) (d := 0) (e := w.bytes) (by omega)
  refine ⟨_, ?_, fun i => (hslot i).trans ?_, congrArg Host.Outcome.next heq⟩
  · rw [hp, BitVec.sub_add_cancel]
  · have hup : i + BitVec.ofNat 8 (2 * w.bytes) - BitVec.ofNat 8 (0 + w.bytes) = i + BitVec.ofNat 8 w.bytes := by
      rw [two_mul, BitVec.ofNat_add, zero_add]; ring
    have hdown : i + BitVec.ofNat 8 (2 * w.bytes) - BitVec.ofNat 8 (w.bytes + w.bytes) - BitVec.ofNat 8 w.bytes =
        i - BitVec.ofNat 8 w.bytes := by rw [two_mul]; ring
    rw [hup, hdown]
    split_ifs <;> rfl

/-- Settles O29. -/
theorem swapExchangesTopValues : Obligations.SwapExchangesTopValues :=
  fun w => ⟨fun skip => congrArg ([·]) (instrByte_eq_opcodeByte w skip 4), fun s =>
    swapEffect_spec w (latchCondition false s)⟩

/-! ### `dup` (R201) -/

theorem dupEffect_spec (w : Width) (s : State) :
    ∃ D', D'.p = s.D.p + BitVec.ofNat 8 w.bytes ∧
      (∀ i : BitVec 8, D'.slot i =
        if (i - s.D.p).toNat < w.bytes then s.D.slot (i - BitVec.ofNat 8 w.bytes) else s.D.slot i) ∧
      dupEffect w s = .next (s.setD D') := by
  have hw := w.bytes_le
  obtain ⟨D₁, hpops, heq⟩ := withOperand_spec w.bytes (fun n t => pushResult w.bytes n (pushResult w.bytes n t)) s
    (by omega)
  obtain ⟨hp, hslot⟩ := hpops.push_push_value (b := w.bytes) (d := 0) (e := 0) (by omega)
  refine ⟨_, ?_, fun i => (hslot i).trans ?_, congrArg Host.Outcome.next heq⟩
  · rw [hp, two_mul, BitVec.ofNat_add]; ring
  · have hcopy : (i - s.D.p).toNat < w.bytes ↔ ¬ (i - (s.D.p - BitVec.ofNat 8 w.bytes)).toNat < w.bytes ∧
        (i - (s.D.p - BitVec.ofNat 8 w.bytes)).toNat < 2 * w.bytes := by bv_omega
    rw [zero_add, BitVec.add_sub_cancel, if_congr hcopy rfl rfl]
    by_cases hlow : (i - (s.D.p - BitVec.ofNat 8 w.bytes)).toNat < w.bytes
    · simp only [hlow, if_true, not_true, false_and, if_false]
    · simp only [hlow, if_false, not_false_eq_true, true_and]

/-- Settles O30. -/
theorem dupCopiesTopValue : Obligations.DupCopiesTopValue :=
  fun w => ⟨fun skip => congrArg ([·]) (instrByte_eq_opcodeByte w skip 8), fun s =>
    dupEffect_spec w (latchCondition false s)⟩

/-! ### `drop` (R202) -/

theorem dropEffect_spec (w : Width) (s : State) :
    ∃ D', s.D.After w.bytes 0 0 D' ∧ dropEffect w s = .next (s.setD D') := by
  have hw := w.bytes_le
  obtain ⟨D', hafter, heq⟩ := withOperand_spec w.bytes (fun _ t => t) s (by omega)
  exact ⟨D', hafter, congrArg Host.Outcome.next heq⟩

/-- Settles O31. -/
theorem dropZeroesTopSlots : Obligations.DropZeroesTopSlots :=
  fun w => ⟨fun skip => congrArg ([·]) (instrByte_eq_opcodeByte w skip 9), fun s =>
    dropEffect_spec w (latchCondition false s)⟩

/-! ### `tor` and `fromr` (R203, R204) -/

theorem torEffect_spec (w : Width) (s : State) :
    ∃ D' R', s.D.After w.bytes 0 0 D' ∧ s.R.After 0 w.bytes (s.D.value 0 w.bytes) R' ∧
      torEffect w s = .next ((s.setD D').setR R') := by
  have hw := w.bytes_le
  obtain ⟨D', hpop, heq⟩ := withOperand_spec w.bytes (fun v t => t.setR (t.R.pushN w.bytes v)) s (by omega)
  have hpush := Stack.pushN_after w.bytes (s.D.value 0 w.bytes) s.R (by omega)
  exact ⟨D', _, hpop, hpush, congrArg Host.Outcome.next heq⟩

/-- Settles O32. -/
theorem toReturnMovesValueWhole : Obligations.ToReturnMovesValueWhole :=
  fun w => ⟨fun skip => congrArg ([·]) (instrByte_eq_opcodeByte w skip 10), fun s =>
    torEffect_spec w (latchCondition false s)⟩

theorem fromrEffect_spec (w : Width) (s : State) :
    ∃ D' R', s.R.After w.bytes 0 0 R' ∧ s.D.After 0 w.bytes (s.R.value 0 w.bytes) D' ∧
      fromrEffect w s = .next ((s.setR R').setD D') := by
  have hw := w.bytes_le
  obtain ⟨hval, hpop⟩ := Stack.popN_spec w.bytes s.R (by omega)
  have hpush := Stack.pushN_after w.bytes (s.R.value 0 w.bytes) s.D (by omega)
  refine ⟨_, _, hpop, hpush, ?_⟩
  rw [fromrEffect, hval]
  rfl

/-- Settles O33. -/
theorem fromReturnMovesValueWhole : Obligations.FromReturnMovesValueWhole :=
  fun w => ⟨fun skip => congrArg ([·]) (instrByte_eq_opcodeByte w skip 11), fun s =>
    fromrEffect_spec w (latchCondition false s)⟩

end Sys2Proof.Machine
end

section
/-! PROOF. Loads and stores (spec/43_loadstore.md R219 to R222): what each effect takes from the data stack before RAM is
accessed, and what the access in range or out of range makes of the state. -/

namespace Sys2Proof.Machine

open Sys2Proof

/-- Settles O41. -/
theorem poppedAddressIsBelowM : Obligations.PoppedAddressIsBelowM :=
  fun s => value_lt_addressSpace s.D 0 s.W

/-! ### `store` (R220) -/

/-- The address and the value below it are popped before RAM is accessed. -/
theorem storeEffect_spec (w : Width) (s : State) :
    ∃ D', s.D.After (s.W.bytes + w.bytes) 0 0 D' ∧
      storeEffect w s =
        .next (storeAt (s.D.value 0 s.W.bytes) w.bytes (s.D.value s.W.bytes w.bytes) (s.setD D')) := by
  have hW := s.W.bytes_le
  have hw := w.bytes_le
  obtain ⟨D₁, haddr, heq⟩ := withOperand_spec s.W.bytes (fun addr => withOperand w.bytes (storeAt addr w.bytes)) s
    (by omega)
  obtain ⟨D', hval, heq'⟩ := withOperand_spec w.bytes (storeAt (s.D.value 0 s.W.bytes) w.bytes) (s.setD D₁) (by omega)
  have hv : D₁.value 0 w.bytes = s.D.value s.W.bytes w.bytes := haddr.value 0 w.bytes (by omega)
  refine ⟨D', haddr.pops hval, ?_⟩
  rw [storeEffect, heq, heq', State.setD_D, hv]
  rfl

/-- Settles O37. -/
theorem storeWritesBigEndian : Obligations.StoreWritesBigEndian := by
  refine fun w => ⟨fun skip => congrArg ([·]) (instrByte_eq_opcodeByte w skip 6), fun s hram hin => ?_⟩
  obtain ⟨D', hpops, heq⟩ := storeEffect_spec w (latchCondition false s)
  exact ⟨D', _, hpops, Memory.stored_writeCells _ _ _ _ hram,
    heq.trans (congrArg Host.Outcome.next ((storeAt_eq ..).trans (if_pos hin)))⟩

/-- Settles O38. -/
theorem storeOutsideRamPanics : Obligations.StoreOutsideRamPanics := by
  intro w s hout
  obtain ⟨D', hpops, heq⟩ := storeEffect_spec w (latchCondition false s)
  exact ⟨D', hpops, heq.trans (congrArg Host.Outcome.next ((storeAt_eq ..).trans (if_neg hout.not_ge)))⟩

/-! ### `load` (R221) -/

/-- The address is popped before RAM is accessed. -/
theorem loadEffect_spec (w : Width) (s : State) :
    ∃ D₁, s.D.After s.W.bytes 0 0 D₁ ∧
      loadEffect w s = .next (loadFrom (s.D.value 0 s.W.bytes) w.bytes (s.setD D₁)) := by
  have hW := s.W.bytes_le
  obtain ⟨D₁, hpop, heq⟩ := withOperand_spec s.W.bytes (fun addr => loadFrom addr w.bytes) s (by omega)
  exact ⟨D₁, hpop, congrArg Host.Outcome.next heq⟩

/-- Settles O39. -/
theorem loadPushesBigEndianValue : Obligations.LoadPushesBigEndianValue := by
  refine fun w => ⟨fun skip => congrArg ([·]) (instrByte_eq_opcodeByte w skip 7), fun s hin => ?_⟩
  have hw := w.bytes_le
  obtain ⟨D₁, hpop, heq⟩ := loadEffect_spec w (latchCondition false s)
  have hpush := hpop.push (Stack.pushN_after w.bytes (s.ram.valueAt (s.D.value 0 s.W.bytes) w.bytes) D₁ (by omega))
  exact ⟨_, hpush, heq.trans (congrArg Host.Outcome.next ((loadFrom_eq ..).trans (if_pos hin)))⟩

/-- Settles O40. -/
theorem loadOutsideRamPanics : Obligations.LoadOutsideRamPanics := by
  intro w s hout
  obtain ⟨D₁, hpop, heq⟩ := loadEffect_spec w (latchCondition false s)
  exact ⟨D₁, hpop, heq.trans (congrArg Host.Outcome.next ((loadFrom_eq ..).trans (if_neg hout.not_ge)))⟩

/-! ### `load` after `store` (R222) -/

/-- Pushing a value that lay on a stack, in as many bytes, puts that value on top (R42, R43). -/
theorem Stack.After.value_of_push_value {S T U : Stack} {m d n : Nat} (h : T.After m n (S.value d n) U)
    (hn : n ≤ 256) : U.value 0 n = S.value d n := by
  rw [h.value_of_push hn, Nat.mod_eq_of_lt (S.value_lt d n)]

/-- Settles O42: the address pushed again is the one stored at, and the bytes stored there make up a value of `w` bytes,
which neither the read nor the push cuts. -/
theorem loadAfterStoreReturnsValue : Obligations.LoadAfterStoreReturnsValue := by
  intro w s t D₁ hram hin hstore hpushed
  have hW := s.W.bytes_le
  have hw := w.bytes_le
  obtain ⟨D', ram', -, hstored, hnext⟩ := (storeWritesBigEndian w).2 s hram hin
  have ht := Host.Outcome.next.inj (hstore.symm.trans hnext)
  have hWt : t.W = s.W := by rw [ht]
  have hramt : t.ram = ram' := by rw [ht]
  have haddr : D₁.value 0 t.W.bytes = s.D.value 0 s.W.bytes := hWt ▸ hpushed.value_of_push_value (by omega)
  have hread : t.ram.valueAt (D₁.value 0 t.W.bytes) w.bytes = s.D.value s.W.bytes w.bytes := by
    rw [haddr, hramt, hstored.valueAt_eq, Nat.mod_eq_of_lt (s.D.value_lt _ _)]
  obtain ⟨D₂, hload, hnext'⟩ := (loadPushesBigEndianValue w).2 { t with D := D₁ } (by rw [haddr, hWt]; exact hin)
  refine ⟨_, hnext', (hread ▸ hload).value_of_push_value (by omega), ?_, rfl⟩
  rw [hload.1, hpushed.1, hWt]
  simp

end Sys2Proof.Machine
end

section
/-! PROOF. Control transfer and immediates (spec/44_control.md R240, R241, spec/30_encoding.md R127): a jump, a literal
whose immediate lies in ROM, and the tick that assembles the immediate from the ROM bytes. -/

namespace Sys2Proof.Machine

open Sys2Proof

/-! ### `jump` (R240) -/

theorem jumpEffect_spec (w : Width) (s : State) :
    ∃ D', s.D.After w.bytes 0 0 D' ∧
      jumpEffect w s = .next ((s.setD D').setPc (BitVec.ofNat 33 (s.D.value 0 w.bytes))) := by
  have hw := w.bytes_le
  obtain ⟨D', hpop, heq⟩ := withOperand_spec w.bytes (fun target t => t.setPc (BitVec.ofNat 33 target)) s (by omega)
  exact ⟨D', hpop, congrArg Host.Outcome.next heq⟩

/-- Settles O43. -/
theorem jumpSetsPcToTarget : Obligations.JumpSetsPcToTarget :=
  fun w => ⟨fun skip => congrArg ([·]) (instrByte_eq_opcodeByte w skip 12), fun s =>
    ⟨value_lt_pow_32 s.D 0 w, jumpEffect_spec w (latchCondition false s)⟩⟩

/-! ### `lit` (R241) -/

/-- The immediate fetch inside ROM moves `pc` past the immediate (R157, R241). -/
theorem immediateFetch_in (f : State → State) {w : Width} {s : State} (h : s.pc.toNat + w.bytes ≤ addressSpace s.W) :
    immediateFetch w f s = .next (f (s.setPc (s.pc + BitVec.ofNat 33 w.bytes))) :=
  if_pos h

/-- Settles O44. -/
theorem literalPushesImmediate : Obligations.LiteralPushesImmediate := by
  refine fun w imm => ⟨fun skip => congrArg (· :: _) (instrByte_eq_opcodeByte w skip 13), fun s hin => ?_⟩
  have hw := w.bytes_le
  have hpush := Stack.pushN_after w.bytes imm.toNat s.D (by omega)
  exact ⟨_, hpush, immediateFetch_in (s := latchCondition false s) (pushResult w.bytes imm.toNat) hin⟩

/-! ### The tick of a literal (R127, R241) -/

/-- The instruction byte of a literal is fetched together with the ROM bytes after it. -/
theorem fetched_eq_lit {s : State} {skip : Bool} {w : Width}
    (h : s.rom.read s.pc.toNat = instrByte skip w.code 13) :
    fetched s = .lit skip w (BitVec.ofNat 32 (bigEndian (s.rom.bytes (s.pc.toNat + 1) w.bytes))) := by
  simp [fetched, h, decodeByte]

/-- The immediate assembled from `w` bytes of memory is made of these bytes, the first most significant (R127): they are
the bytes that encode it. -/
theorem byteOf_immediate (m : Memory) (a : Nat) (w : Width) {k : Nat} (hk : k < w.bytes) :
    byteOf (w.bytes - 1 - k) (BitVec.ofNat 32 (bigEndian (m.bytes a w.bytes))).toNat = m.read (a + k) := by
  have hbytes : bytesOf w.bytes (BitVec.ofNat 32 (bigEndian (m.bytes a w.bytes))).toNat = m.bytes a w.bytes :=
    (List.cons.inj (wf_and_encode_lit false (m.bytes_length a w.bytes)).2).2
  rw [← bytesOf_getElem _ _ k (by simpa using hk), List.getElem_of_eq hbytes, Memory.bytes_getElem]

/-- Settles O45: the literal fetched pushes its immediate, whose bytes are those of ROM. -/
theorem literalTickPushesRomBytes : Obligations.LiteralTickPushesRomBytes := by
  intro w s hr hin hbyte
  have hp : s.pc.toNat < addressSpace s.W := by omega
  have hfetched := fetched_eq_lit (hbyte.trans (instrByte_eq_opcodeByte w false 13).symm)
  obtain ⟨D', ⟨hptr, hslot⟩, hexec⟩ := (literalPushesImmediate w _).2 { s with pc := s.pc + 1 }
    (by rw [pc_succ_toNat hp]; exact hin)
  refine ⟨D', by simpa using hptr, fun i => ?_, by rw [step_in s hr hp, hfetched]; exact hexec⟩
  rw [hslot i, BitVec.sub_zero]
  by_cases hk : (i - s.D.p).toNat < w.bytes
  · rw [if_pos hk, if_pos hk, byteOf_immediate _ _ _ hk]
  · rw [if_neg hk, if_neg hk, if_neg (Nat.not_lt_zero _)]

end Sys2Proof.Machine
end

section
/-! PROOF. Device-interrupt (spec/45_device.md R264, R266, R268): the selectors are popped, the answered calls take
their effect (`afterCalls`), and the next call, if there is one, decides how the tick ends. -/

namespace Sys2Proof.Machine

open Sys2Proof

/-! ### The calls that return -/

/-- The bytes from depth `k` down begin with the byte at depth `k`. -/
theorem Stack.drop_topBytes (S : Stack) {k n : Nat} (h : k < n) :
    (S.topBytes n).drop k = S.peek k :: (S.topBytes n).drop (k + 1) := by
  rw [List.drop_eq_getElem_cons (by rwa [Stack.topBytes_length])]
  simp [Stack.topBytes]

/-- The state in which an unconditional device-interrupt makes its first call: the latch is written and the selectors
are popped (R154, R264). -/
def selectorsPopped (w : Width) (s : State) : State :=
  (latchCondition false s).setD (s.D.popBytes w.bytes).2

/-- The selectors are dispatched from the top byte down (R264). -/
theorem exec_dev_eq (w : Width) (s : State) :
    exec (.dev false w) s = callDevices (s.D.topBytes w.bytes) (selectorsPopped w s) := by
  have hw := w.bytes_le
  rw [← (Stack.popBytes_spec w.bytes s.D (by omega)).1]
  rfl

/-- The state after the first calls of an unconditional device-interrupt have returned with the answers `replies`. -/
def callsReturned (w : Width) (replies : List (List Host.Cell × Byte)) (s : State) : State :=
  afterCalls (s.D.topBytes w.bytes) replies (selectorsPopped w s)

/-- The results of the answered calls take the place of the selectors, the result of the top selector deepest. -/
theorem callsReturned_D {w : Width} {replies : List (List Host.Cell × Byte)} (hlen : replies.length ≤ w.bytes)
    (s : State) :
    s.D.After w.bytes replies.length (bigEndian (replies.map (·.2))) (callsReturned w replies s).D := by
  have hw := w.bytes_le
  have hpush := Stack.pushBytes_after (replies.map (·.2)) (s.D.popBytes w.bytes).2 (by rw [List.length_map]; omega)
  rw [List.length_map] at hpush
  exact (Stack.popBytes_spec w.bytes s.D (by omega)).2.push hpush

/-- What the answered calls leave of the launch input. -/
theorem callsReturned_deviceReplies {s : State} {replies : List (List Host.Cell × Byte)} {rest : List DeviceReply}
    (w : Width) (h : s.deviceReplies = returning replies ++ rest) : (callsReturned w replies s).deviceReplies = rest :=
  (congrArg (List.drop replies.length) h).trans (List.drop_left' (List.length_map _))

/-- Past the data stack, the answered calls change the latch, RAM, the record of events and the two device inputs. -/
theorem callsReturned_eq {s : State} {replies : List (List Host.Cell × Byte)} {rest : List DeviceReply}
    (w : Width) (h : s.deviceReplies = returning replies ++ rest) :
    callsReturned w replies s = { s with
      D := (callsReturned w replies s).D, skip := { flag := false, exec := true }
      ram := Memory.writeCells (replies.flatMap (·.1)) s.ram
      events := s.events ++ (List.zipWith (callEvents s.devices) (s.D.topBytes w.bytes) replies).flatten
      deviceReplies := rest, deviceCalls := s.deviceCalls + replies.length } := by
  rw [← callsReturned_deviceReplies w h]
  rfl

section
variable {w : Width} {s : State} {replies : List (List Host.Cell × Byte)} {rest : List DeviceReply}

/-- A device-interrupt whose first calls are answered within the contract goes on with the selectors below them. -/
theorem exec_dev_returning (hlen : replies.length ≤ w.bytes) (hreplies : s.deviceReplies = returning replies ++ rest)
    (hram : ∀ r ∈ replies, ∀ c ∈ r.1, c.1 < addressSpace s.W)
    (hfound : ∀ j, j < replies.length → (findDevice s.devices (s.D.peek j)).isSome = true) :
    exec (.dev false w) s =
      callDevices ((s.D.topBytes w.bytes).drop replies.length) (callsReturned w replies s) := by
  rw [exec_dev_eq]
  refine callDevices_returning replies _ _ rest (by rwa [Stack.topBytes_length]) hreplies hram fun sel hsel => ?_
  rw [Stack.topBytes_take _ _ _ hlen, Stack.mem_topBytes] at hsel
  obtain ⟨j, hj, rfl⟩ := hsel
  exact hfound j hj

/-- With a selector left after these calls, the next call is that of the selector at the depth of their number. -/
theorem exec_dev_next_call (hlen : replies.length < w.bytes) (hreplies : s.deviceReplies = returning replies ++ rest)
    (hram : ∀ r ∈ replies, ∀ c ∈ r.1, c.1 < addressSpace s.W)
    (hfound : ∀ j, j < replies.length → (findDevice s.devices (s.D.peek j)).isSome = true) :
    exec (.dev false w) s =
      callDevices (s.D.peek replies.length :: (s.D.topBytes w.bytes).drop (replies.length + 1))
        (callsReturned w replies s) := by
  rw [exec_dev_returning hlen.le hreplies hram hfound, Stack.drop_topBytes _ hlen]

end

/-- Settles O46: after the answered calls no selector is left. -/
theorem deviceInterruptCallsEachSelector : Obligations.DeviceInterruptCallsEachSelector := by
  refine fun w => ⟨fun skip => congrArg ([·]) (instrByte_eq_opcodeByte w skip 14), ?_⟩
  intro s replies rest hlen hreplies hram hfound
  have hdone : (s.D.topBytes w.bytes).drop replies.length = [] :=
    List.drop_of_length_le (by rw [Stack.topBytes_length, hlen])
  have hstate := callsReturned_eq w hreplies
  rw [hlen] at hstate
  refine ⟨_, hlen ▸ callsReturned_D hlen.le s, ?_⟩
  rw [exec_dev_returning hlen.le hreplies hram (hlen ▸ hfound), hdone, callDevices]
  exact congrArg Host.Outcome.next hstate

/-! ### The call after them -/

/-- The first unmatched selector panics (R264, R301). -/
theorem callDevices_unmatched {sel : Byte} {s : State} (rest : List Byte) (h : findDevice s.devices sel = none) :
    callDevices (sel :: rest) s = .next (s.raise .unregisteredDevice) := by
  rw [callDevices, h]

/-- Settles O47. -/
theorem unmatchedSelectorPanics : Obligations.UnmatchedSelectorPanics := by
  intro w s replies rest hlen hreplies hram hfound hnone
  refine ⟨_, callsReturned_D hlen.le s, ?_⟩
  rw [exec_dev_next_call hlen hreplies hram hfound, callDevices_unmatched (s := callsReturned w replies s) _ hnone]
  exact congrArg (fun t : State => (.next (t.raise .unregisteredDevice) : Result)) (callsReturned_eq w hreplies)

/-- While the launch input lasts, a device answers with its next entry (log entry 1). -/
theorem nextReply_of_cons {dev : Nat} {sel : Byte} {s : State} {answer : DeviceReply} {later : List DeviceReply}
    (h : s.deviceReplies = answer :: later) : nextReply dev sel s = answer := by
  rw [nextReply, h]

/-- A device that never returns leaves the dispatch stuck (R268, I7). -/
theorem callDevices_hangs {sel : Byte} {s : State} {found : Fin 16 × DeviceEntry} (rest : List Byte)
    (hfound : findDevice s.devices sel = some found) (h : nextReply found.2.dev sel s = .hangs) :
    callDevices (sel :: rest) s = .fault .deviceNeverReturns := by
  rw [callDevices, hfound]
  simp only [h]

/-- A device that breaks its contract gives the dispatch no meaning (R266, I6, I8). -/
theorem callDevices_breaksContract {sel : Byte} {s : State} {found : Fin 16 × DeviceEntry} (rest : List Byte)
    (hfound : findDevice s.devices sel = some found) (h : nextReply found.2.dev sel s = .breaksContract) :
    callDevices (sel :: rest) s = .refused .deviceOutsideContract := by
  rw [callDevices, hfound]
  simp only [h]

/-- A device's write at or above `M` is a breach of its contract (log entry 3). -/
theorem callDevices_writesOutsideRam {sel r : Byte} {s : State} {found : Fin 16 × DeviceEntry}
    {writes : List Host.Cell} (rest : List Byte) (hfound : findDevice s.devices sel = some found)
    (h : nextReply found.2.dev sel s = .returns writes r) (hout : ∃ c ∈ writes, addressSpace s.W ≤ c.1) :
    callDevices (sel :: rest) s = .refused .deviceOutsideContract := by
  have hbreach : ¬ writesInRam s.W writes = true := by simpa [writesInRam] using hout
  rw [callDevices, hfound]
  simp only [h, if_neg hbreach]

/-- Settles O48: the launch input's entry after the earlier answers is that of the next call. -/
theorem deviceThatDoesNotAnswerStops : Obligations.DeviceThatDoesNotAnswerStops := by
  intro w s replies rest hlen hram hfound
  obtain ⟨found, hf⟩ := Option.isSome_iff_exists.1 (hfound replies.length le_rfl)
  have hearlier (j : Nat) (hj : j < replies.length) := hfound j hj.le
  have hnext {answer : DeviceReply} (h : s.deviceReplies = returning replies ++ answer :: rest) :
      nextReply found.2.dev (s.D.peek replies.length) (callsReturned w replies s) = answer :=
    nextReply_of_cons (callsReturned_deviceReplies w h)
  refine ⟨fun h => ?_, fun h => ?_, fun writes r hout h => ?_⟩
  · rw [exec_dev_next_call hlen h hram hearlier]
    exact callDevices_hangs _ hf (hnext h)
  · rw [exec_dev_next_call hlen h hram hearlier]
    exact callDevices_breaksContract _ hf (hnext h)
  · rw [exec_dev_next_call hlen h hram hearlier]
    exact callDevices_writesOutsideRam _ hf (hnext h) hout

/-- Where the launch input is used up, the free value does what the same entry does: it is the answer, and the call
leaves no entry behind either way. -/
theorem callDevices_free {sel : Byte} {s : State} {found : Fin 16 × DeviceEntry} (rest : List Byte)
    (hfound : findDevice s.devices sel = some found) (hempty : s.deviceReplies = []) :
    callDevices (sel :: rest) s = callDevices (sel :: rest)
      { s with deviceReplies := [Config.deviceReply found.2.dev s.deviceCalls sel s.ram] } := by
  have hfree : nextReply found.2.dev sel s = Config.deviceReply found.2.dev s.deviceCalls sel s.ram := by
    rw [nextReply, hempty]
  have hentry (answer : DeviceReply) : nextReply found.2.dev sel { s with deviceReplies := [answer] } = answer :=
    nextReply_of_cons rfl
  have htake (answer : DeviceReply) : State.takeReply { s with deviceReplies := [answer] } = s.takeReply := by
    simp [State.takeReply, hempty]
  rw [callDevices, callDevices, hfound]
  simp only [hfree, hentry, deviceReturns, htake]

/-- Entries of the launch input after those used up make no difference to what the calls before them do. -/
theorem callsReturned_append (w : Width) (replies : List (List Host.Cell × Byte)) (rest : List DeviceReply)
    (s : State) :
    callsReturned w replies { s with deviceReplies := returning replies ++ rest } =
      { callsReturned w replies s with deviceReplies := rest } :=
  callsReturned_eq (s := { s with deviceReplies := returning replies ++ rest }) w rfl

/-- Settles O49: the earlier calls lead both states to the same one but for the entry added. -/
theorem freeAnswerActsAsLaunchAnswer : Obligations.FreeAnswerActsAsLaunchAnswer := by
  intro w s replies found hlen hreplies hram hearlier hf
  have hnone : s.deviceReplies = returning replies ++ [] := by rw [hreplies, List.append_nil]
  calc exec (.dev false w) s
    _ = callDevices (_ :: _) (callsReturned w replies s) := exec_dev_next_call hlen hnone hram hearlier
    _ = callDevices (_ :: _) { callsReturned w replies s with deviceReplies := [_] } :=
      callDevices_free _ hf (callsReturned_deviceReplies w hnone)
    _ = callDevices (_ :: _) (callsReturned w replies { s with deviceReplies := returning replies ++ [_] }) :=
      congrArg _ (callsReturned_append w replies _ s).symm
    _ = _ := (exec_dev_next_call (s := { s with deviceReplies := _ }) hlen rfl hram hearlier).symm

end Sys2Proof.Machine
end

section
/-! PROOF. The device registry (spec/45_device.md R261, R262, R263): the lookup under unique selectors, and the outcomes
of a registration. -/

namespace Sys2Proof.Machine

open Sys2Proof

/-! ### The lookup -/

/-- With unique selectors the entry found is the one that holds the selector (R51, R263). -/
theorem findDevice_eq_some_iff {T : DeviceTable} (hT : UniqueSelectors T) (sel : Byte) (i : Fin 16) (e : DeviceEntry) :
    findDevice T sel = some (i, e) ↔ T[i] = some e ∧ e.sel = sel := by
  refine ⟨findDevice_some, fun ⟨hi, hsel⟩ => ?_⟩
  cases hfind : findDevice T sel with
  | none => exact absurd hsel ((findDevice_eq_none T sel).1 hfind i e hi)
  | some found =>
    obtain ⟨hj, hfsel⟩ := findDevice_some hfind
    obtain rfl : found.1 = i := hT _ _ _ _ hj hi (hfsel.trans hsel.symm)
    rw [← Option.some.inj (hj.symm.trans hi)]

/-- Settles O50. -/
theorem findMatchesWholeSelector : Obligations.FindMatchesWholeSelector :=
  fun _ hs sel => ⟨findDevice_eq_some_iff hs.selectorsUnique sel, findDevice_eq_none _ sel⟩

/-- The scan finds something exactly when a valid entry holds the selector (R262). -/
theorem findDevice_isSome_iff (T : DeviceTable) (sel : Byte) :
    (findDevice T sel).isSome = true ↔ ∃ (i : Fin 16) (e : DeviceEntry), T[i] = some e ∧ e.sel = sel := by
  rw [← Option.ne_none_iff_isSome, Ne, findDevice_eq_none]
  push Not
  rfl

/-- An entry filled with a selector that no valid entry holds is the one found for it. -/
theorem findDevice_set {T : DeviceTable} {e : DeviceEntry} (hnew : findDevice T e.sel = none) (i : Fin 16) :
    findDevice (T.set i (some e)) e.sel = some (i, e) := by
  rw [findDevice_eq_none] at hnew
  cases hfind : findDevice (T.set i (some e)) e.sel with
  | none =>
    have hi : (T.set i (some e))[i] = some e := by rw [DeviceTable.getElem_set, if_pos rfl]
    exact absurd rfl ((findDevice_eq_none _ _).1 hfind i e hi)
  | some found =>
    obtain ⟨hj, hsel⟩ := findDevice_some hfind
    rw [DeviceTable.getElem_set] at hj
    split at hj
    case isTrue hij => rw [hij, Option.some.inj hj]
    case isFalse => exact absurd hsel (hnew _ _ hj)

/-! ### The outcomes of a registration -/

theorem register_started (pick : Fin 16) (sel : Byte) (dev : Nat) {s : State} (h : s.started = true) :
    register pick sel dev s = .outsideSpec :=
  if_pos h

/-- Before the start, a new selector with an entry left to take is registered there (R261). -/
theorem register_of_free {pick i : Fin 16} {sel : Byte} {s : State} (dev : Nat) (hs : s.started = false)
    (hfind : findDevice s.devices sel = none) (hfree : freeEntry s.devices pick = some i) :
    register pick sel dev s = .done { s with devices := s.devices.set i (some { sel := sel, dev := dev }) } := by
  simp [register, hs, hfind, hfree]

/-- Before the start, a registration fails exactly when the selector is found or no entry can be taken (R261). -/
theorem register_eq_failure_iff (pick : Fin 16) (sel : Byte) (dev : Nat) {s : State} (hs : s.started = false) :
    register pick sel dev s = .failure ↔
      (findDevice s.devices sel).isSome = true ∨ freeEntry s.devices pick = none := by
  cases hfind : findDevice s.devices sel with
  | some found => simp [register, hs, hfind]
  | none =>
    cases hfree : freeEntry s.devices pick with
    | none => simp [register, hs, hfind, hfree]
    | some i => simp [register_of_free dev hs hfind hfree]

/-- Settles O51. -/
theorem registerInstallsOrFails : Obligations.RegisterInstallsOrFails := by
  refine fun pick sel dev s => ⟨register_started pick sel dev, fun hs => ⟨?_, fun hnew hinvalid => ?_, fun t h => ?_⟩⟩
  · rw [register_eq_failure_iff pick sel dev hs, findDevice_isSome_iff, freeEntry_eq_none]
  · have hfree : freeEntry s.devices pick ≠ none := by simpa [freeEntry_eq_none] using hinvalid
    obtain ⟨i, hi⟩ := Option.ne_none_iff_exists'.1 hfree
    exact ⟨_, register_of_free dev hs ((findDevice_eq_none _ _).2 hnew) hi⟩
  · obtain ⟨-, hfind, i, hi, rfl⟩ := register_done h
    have hset := findDevice_set (e := { sel := sel, dev := dev }) hfind i
    exact ⟨i, hi, rfl, congrArg (Option.map (·.2)) hset⟩

/-- The round begins at the entry picked (log entry 10). -/
theorem freeEntry_self {T : DeviceTable} {i : Fin 16} (h : T[i] = none) : freeEntry T i = some i := by
  simpa [freeEntry, List.finRange_succ] using h

/-- Settles O52. -/
theorem registerMayTakeAnyFreeEntry : Obligations.RegisterMayTakeAnyFreeEntry :=
  fun _ _ dev _ hs hi hfind => register_of_free dev hs hfind (freeEntry_self hi)

end Sys2Proof.Machine
end

section
/-! PROOF. Diagnostic (spec/46_diagnostic.md R290, decision D15): the one effect is the event, and its value is the
item's own number, which the 33 bits of an event hold without loss. -/

namespace Sys2Proof.Machine

open Sys2Proof

/-! ### The value reported -/

/-- A stack pointer is 8 bits (R36). -/
theorem diagValue_dataPointer_toNat (s : State) : (diagValue .dataPointer s).toNat = s.D.p.toNat :=
  BitVec.toNat_setWidth_of_le (by decide)

theorem diagValue_returnPointer_toNat (s : State) : (diagValue .returnPointer s).toNat = s.R.p.toNat :=
  BitVec.toNat_setWidth_of_le (by decide)

/-- The word width is at most 4 (R49). -/
theorem diagValue_wordWidth_toNat (s : State) : (diagValue .wordWidth s).toNat = s.W.bytes := by
  have hW := s.W.bytes_le
  exact (BitVec.toNat_ofNat _ _).trans (Nat.mod_eq_of_lt (by omega))

/-- The latch is no item. -/
theorem diagValue_setSkip (item : DiagItem) (l : SkipLatch) (s : State) :
    diagValue item (s.setSkip l) = diagValue item s := by
  cases item <;> rfl

/-! ### The effect -/

theorem diagEffect_without_port (item : DiagItem) {s : State} (h : s.diagPort = false) :
    diagEffect item s = .next s := by
  simp [diagEffect, h]

theorem diagEffect_with_port (item : DiagItem) {s : State} (h : s.diagPort = true) :
    diagEffect item s = .next (s.emit (.diag item (diagValue item s))) :=
  congrArg Host.Outcome.next (if_pos h)

/-- Settles O57: the width codes 0 to 3 are the items' selectors, and the value in the event is `diagValue` of the
state itself, since the latch does not enter into it. -/
theorem diagnosticOnlyReports : Obligations.DiagnosticOnlyReports := by
  refine ⟨fun skip => ⟨?_, ?_, ?_, ?_⟩, fun item s => ⟨fun hport => ?_, fun hport => ⟨diagValue item s, ?_, ?_⟩⟩⟩
  · exact congrArg ([·]) (instrByte_eq_opcodeByte .w1 skip 15)
  · exact congrArg ([·]) (instrByte_eq_opcodeByte .w2 skip 15)
  · exact congrArg ([·]) (instrByte_eq_opcodeByte .w3 skip 15)
  · exact congrArg ([·]) (instrByte_eq_opcodeByte .w4 skip 15)
  · exact diagEffect_without_port item (s := latchCondition false s) hport
  · rw [← diagValue_setSkip item { flag := false, exec := true } s]
    exact diagEffect_with_port item (s := latchCondition false s) hport
  · refine ⟨?_, ?_, ?_, ?_⟩ <;> rintro rfl
    · exact diagValue_dataPointer_toNat s
    · exact diagValue_returnPointer_toNat s
    · rfl
    · exact diagValue_wordWidth_toNat s

end Sys2Proof.Machine
end

section
/-! PROOF. Loading an image and starting the block (spec/70_reset_and_hazards.md R331, R335, spec/10_state.md R50): what
`init` answers at a legal word width, and that the start latch outlasts every run. -/

namespace Sys2Proof.Machine

open Sys2Proof

/-! ### Loading (R331) -/

theorem legalWidth_bytes (W : Width) : legalWidth W.bytes = some W := by cases W <;> rfl

theorem init_unreadable {l : Launch} {W : Width} (hW : l.W = W.bytes) (h : l.image = none) :
    init l = .loadFailure .imageUnreadable := by
  rw [init, hW, legalWidth_bytes, h]

/-- A readable image becomes a block exactly where it fits in ROM. -/
theorem init_readable {l : Launch} {W : Width} {image : List Byte} (hW : l.W = W.bytes) (h : l.image = some image) :
    init l =
      if image.length ≤ addressSpace W then .ready (initialBlock l W image) else .loadFailure .imageTooLarge := by
  rw [init, hW, legalWidth_bytes, h]
  rfl

/-- Settles O55. -/
theorem initRefusesOversizeImage : Obligations.InitRefusesOversizeImage := by
  intro l W hW
  refine ⟨init_unreadable hW, fun image himage => ?_⟩
  rw [init_readable hW himage, hW, ← addressSpace]
  exact ⟨fun hlong => if_neg hlong.not_ge, fun hfit => ⟨_, if_pos hfit⟩⟩

/-! ### Starting (R335) -/

/-- What every step keeps, every run that answers a next state keeps. -/
theorem run_keeps {M : Host.Core} {P : M.State → Prop} (hstep : ∀ s t, P s → M.step s = .next t → P t) (n : Nat)
    {s t : M.State} (hs : P s) (h : M.run n s = .next t) : P t := by
  induction n generalizing s with
  | zero => cases h; exact hs
  | succ n ih =>
    rw [Host.Core.run] at h
    split at h
    case h_1 u hu => exact ih (hstep s u hs hu) h
    all_goals cases h

/-- No tick clears the start latch (R50). -/
theorem step_keeps_started {s t : State} (hs : s.started = true) (h : step s = .next t) : t.started = true := by
  obtain ⟨-, -, -, hkept, -⟩ := stepKeepsRomAndConfiguration s t h
  exact hkept.trans hs

theorem start_started {s : State} (h : s.started = true) : start s = .outsideSpec := by
  simp [start, h]

/-- Settles O54: a start that succeeds sets the latch, and a run keeps it. -/
theorem startAcceptedOnce : Obligations.StartAcceptedOnce := by
  refine ⟨fun s hhalted hs => if_pos ⟨hhalted, hs⟩, fun s t u n hstart hrun => start_started ?_⟩
  obtain ⟨-, -, rfl⟩ := start_done hstart
  exact run_keeps (M := core) (P := fun s : State => s.started = true) (fun _ _ => step_keeps_started) n rfl hrun

end Sys2Proof.Machine
end

section
/-! PROOF. When executing an instruction answers a next state (spec/60_exceptions.md R300, spec/45_device.md R264, R266,
R268): always, but for a call of a device-interrupt. -/

namespace Sys2Proof.Machine

open Sys2Proof

/-! ### Every instruction but `dev` -/

/-- An effect that answers a next state in every state. -/
def AlwaysAnswers (effect : State → Result) : Prop := ∀ s, ∃ t, effect s = .next t

theorem immediateFetch_alwaysAnswers (w : Width) (f : State → State) : AlwaysAnswers (immediateFetch w f) := by
  intro s
  rw [immediateFetch]
  split <;> exact ⟨_, rfl⟩

/-- Predication adds no way to stop (R156). -/
theorem predicated_alwaysAnswers (skip : Bool) {effect suppressed : State → Result} (he : AlwaysAnswers effect)
    (hs : AlwaysAnswers suppressed) : AlwaysAnswers (predicated skip effect suppressed) := by
  intro s
  rw [predicated]
  split
  · exact he _
  · exact hs _

/-- The effects of the last case are next states by their form. -/
theorem exec_alwaysAnswers (i : Instr) (hdev : ∀ skip w, i ≠ .dev skip w) : AlwaysAnswers (exec i) := by
  cases i
  case dev skip w => exact absurd rfl (hdev skip w)
  case halt => exact fun _ => ⟨_, rfl⟩
  case lit =>
    exact predicated_alwaysAnswers _ (immediateFetch_alwaysAnswers _ _) (immediateFetch_alwaysAnswers _ _)
  all_goals exact predicated_alwaysAnswers _ (fun _ => ⟨_, rfl⟩) fun _ => ⟨_, rfl⟩

/-! ### `dev` -/

/-- An instruction with nothing left when it is suppressed answers a next state exactly where its effect does, if it
performs it (R156). -/
theorem predicated_answers_iff (skip : Bool) (effect : State → Result) (s : State) :
    (∃ t, predicated skip effect suppressedEffect s = .next t) ↔
      (Performs skip s → ∃ t, effect (latchCondition skip s) = .next t) := by
  obtain ⟨_, _, _, _, _, hexec, _⟩ := latchCondition_spec skip s
  rw [predicated, ← hexec]
  split
  case isTrue h => simp only [h, forall_const]
  case isFalse h => simp [h, suppressedEffect]

/-- The selectors are dispatched from the top byte down, once all are popped (R264). -/
theorem devEffect_eq (w : Width) (s : State) :
    devEffect w s = callDevices (s.D.topBytes w.bytes) (s.setD (s.D.popBytes w.bytes).2) := by
  have hw := w.bytes_le
  rw [devEffect, (Stack.popBytes_spec w.bytes s.D (by omega)).1]

/-- A byte on the stack left by the latching lay below the condition byte, if there was one (R155). -/
theorem latchCondition_peek (skip : Bool) (s : State) {d : Nat} (hd : d < 255) :
    (latchCondition skip s).D.peek d = s.D.peek (operandDepth skip + d) := by
  obtain ⟨_, hafter, rfl, -⟩ := latchCondition_spec skip s
  have : operandDepth skip ≤ 1 := by cases skip <;> decide
  exact hafter.peek d (by omega)

/-- The state in which a device-interrupt, with or without the skip bit, makes its first call. -/
def dispatchStart (skip : Bool) (w : Width) (s : State) : State :=
  (latchCondition skip s).setD ((latchCondition skip s).D.popBytes w.bytes).2

section
variable (skip : Bool) {w : Width} (s : State) {before : List (List Host.Cell × Byte)}

/-- The answers to the dispatch are those stated of the stack before the instruction. -/
theorem pendingAnswer_dispatchStart (h : before.length < w.bytes) :
    pendingAnswer (dispatchStart skip w s) ((latchCondition skip s).D.topBytes w.bytes) before =
      nextAnswer s (operandDepth skip) before := by
  have hw := w.bytes_le
  have hsel : ((latchCondition skip s).D.topBytes w.bytes)[before.length]? =
      some (s.D.peek (operandDepth skip + before.length)) := by
    rw [← latchCondition_peek skip s (by omega)]
    simp [Stack.topBytes, h]
  rw [pendingAnswer, hsel]
  cases skip <;> rfl

theorem dispatchAnsweredBy_dispatchStart (h : before.length < w.bytes) :
    DispatchAnsweredBy (dispatchStart skip w s) ((latchCondition skip s).D.topBytes w.bytes) before ↔
      AnsweredBy s (operandDepth skip) before := by
  have hW : (dispatchStart skip w s).W = s.W := (Changes.latch skip s).1.W
  refine forall_congr' fun earlier => forall₃_congr fun reply later heq => ?_
  have hearlier : earlier.length < w.bytes := by
    rw [heq, List.length_append] at h
    omega
  rw [pendingAnswer_dispatchStart skip s hearlier, hW]

end

/-- Settles O16: a `dev` that performs its effect is the dispatch, whose answers are those the statement names. -/
theorem onlyDeviceCallsStop : Obligations.OnlyDeviceCallsStop := by
  refine ⟨fun i s hdev => exec_alwaysAnswers i hdev s, fun skip w s => ?_⟩
  have hW : (dispatchStart skip w s).W = s.W := (Changes.latch skip s).1.W
  refine (predicated_answers_iff skip (devEffect w) s).trans (imp_congr_right fun _ => ?_)
  rw [devEffect_eq, ← dispatchStart, callDevices_next_iff, Stack.topBytes_length, hW]
  refine forall_congr' fun before => forall₂_congr fun answer hlen => ?_
  rw [dispatchAnsweredBy_dispatchStart skip s hlen, pendingAnswer_dispatchStart skip s hlen]

end Sys2Proof.Machine
end

section
/-! PROOF. When executing an instruction raises a fault (spec/60_exceptions.md R300, R301): the exact condition of each
effect that can fault, then under the skip bit. -/

namespace Sys2Proof.Machine

open Sys2Proof

/-! ### The effects -/

/-- In a Running block, an effect that answers a next state raises the fault `cause` where `due` holds, and none
elsewhere. -/
def FaultsExactly (effect : State → Result) (cause : PanicCause) (due : State → Prop) : Prop :=
  ∀ s t : State, s.status = .running → effect s = .next t →
    (due s ∧ t.status = .panic ∧ t.panicCause = some cause) ∨ (¬ due s ∧ t.status ≠ .panic)

/-- The fault on record tells which one was raised. -/
theorem FaultsExactly.panic_iff {effect : State → Result} {cause : PanicCause} {due : State → Prop}
    (hf : FaultsExactly effect cause due) {s t : State} (hr : s.status = .running) (h : effect s = .next t)
    (c : PanicCause) : t.status = .panic ∧ t.panicCause = some c ↔ c = cause ∧ due s := by
  obtain ⟨hdue, hpanic, hcause⟩ | ⟨hdue, hpanic⟩ := hf s t hr h
  · simp [hdue, hpanic, hcause, eq_comm]
  · simp [hdue, hpanic]

/-- An effect that leaves the status alone wherever it answers a next state. -/
def KeepsStatus (effect : State → Result) : Prop := ∀ s t : State, effect s = .next t → t.status = s.status

theorem KeepsStatus.neverFaults {effect : State → Result} (he : KeepsStatus effect) (cause : PanicCause) :
    FaultsExactly effect cause fun _ => False :=
  fun s t hr h => .inr ⟨id, by simp [he s t h, hr]⟩

theorem diagEffect_keepsStatus (item : DiagItem) : KeepsStatus (diagEffect item) := by
  intro s t h; cases h; split <;> rfl

theorem immediateFetch_faultsExactly (w : Width) {f : State → State} (hf : ∀ s, (f s).status = s.status) :
    FaultsExactly (immediateFetch w f) .romOutOfRange fun s => addressSpace s.W < s.pc.toNat + w.bytes := by
  intro s t hr h
  rw [immediateFetch] at h
  split at h <;> cases h
  case isTrue hin => exact .inr ⟨hin.not_gt, by simp [hf, hr]⟩
  case isFalse hout => exact .inl ⟨Nat.lt_of_not_le hout, rfl, rfl⟩

/-- An access of `w` bytes at the address on top of the data stack runs past the top of RAM (R84). -/
def AccessPastRam (w : Width) (s : State) : Prop := addressSpace s.W < s.D.value 0 s.W.bytes + w.bytes

/-- A store that performs its effect pops the address first (R220). -/
theorem storeEffect_faultsExactly (w : Width) :
    FaultsExactly (storeEffect w) .ramOutOfRange (AccessPastRam w) := by
  intro s t hr h
  obtain ⟨D', -, heq⟩ := storeEffect_spec w s
  rw [heq, storeAt_eq] at h
  cases h
  rw [State.setD_W]
  split
  case isTrue hin => exact .inr ⟨hin.not_gt, by simp [hr]⟩
  case isFalse hout => exact .inl ⟨Nat.lt_of_not_le hout, rfl, rfl⟩

/-- So does a load (R221). -/
theorem loadEffect_faultsExactly (w : Width) :
    FaultsExactly (loadEffect w) .ramOutOfRange (AccessPastRam w) := by
  intro s t hr h
  obtain ⟨D', -, heq⟩ := loadEffect_spec w s
  rw [heq, loadFrom_eq] at h
  cases h
  rw [State.setD_W]
  split
  case isTrue hin => exact .inr ⟨hin.not_gt, by simp [pushResult, hr]⟩
  case isFalse hout => exact .inl ⟨Nat.lt_of_not_le hout, rfl, rfl⟩

/-- The dispatch gets past every selector it finds, so it faults where one of them is not found (R264). -/
theorem callDevices_faultsExactly (sels : List Byte) :
    FaultsExactly (callDevices sels) .unregisteredDevice fun s =>
      ∃ sel ∈ sels, findDevice s.devices sel = none := by
  intro s t hr h
  obtain ⟨replies, -, -, hfound, ⟨hall, rfl⟩ | ⟨sel, hsel, hnone, rfl⟩⟩ := callDevices_next h
  · rw [hall, List.take_length] at hfound
    refine .inr ⟨fun ⟨sel, hsel, hnone⟩ => ?_, by simp [afterCalls, hr]⟩
    simpa [hnone] using hfound sel hsel
  · exact .inl ⟨⟨sel, List.mem_of_mem_drop (List.mem_of_mem_head? hsel), hnone⟩, rfl, rfl⟩

theorem devEffect_faultsExactly (w : Width) :
    FaultsExactly (devEffect w) .unregisteredDevice fun s =>
      ∃ j, j < w.bytes ∧ findDevice s.devices (s.D.peek j) = none := by
  intro s t hr h
  rw [devEffect_eq] at h
  simpa [Stack.mem_topBytes] using callDevices_faultsExactly _ (s.setD (s.D.popBytes w.bytes).2) t hr h

/-! ### The instructions -/

/-- An instruction that is suppressed to nothing faults where it performs an effect that does (R156). -/
theorem predicated_faultsExactly (skip : Bool) {effect : State → Result} {cause : PanicCause} {due : State → Prop}
    (he : FaultsExactly effect cause due) :
    FaultsExactly (predicated skip effect suppressedEffect) cause fun s =>
      Performs skip s ∧ due (latchCondition skip s) := by
  intro s t hr h
  obtain ⟨_, _, _, _, _, _, _, hstatus⟩ := latchCondition_spec skip s
  obtain ⟨hp, h⟩ | ⟨hn, h⟩ := predicated_cases h
  · simpa [hp] using he _ t (hstatus.trans hr) h
  · cases h
    exact .inr ⟨fun hdue => hn hdue.1, by simp [hstatus, hr]⟩

/-- A literal looks at its immediate's range whether it is suppressed or not (R157, decision D16). -/
theorem exec_lit_faultsExactly (skip : Bool) (w : Width) (imm : BitVec 32) :
    FaultsExactly (exec (.lit skip w imm)) .romOutOfRange fun s => addressSpace s.W < s.pc.toNat + w.bytes := by
  intro s t hr h
  obtain ⟨_, _, _, hW, hpc, _, _, hstatus⟩ := latchCondition_spec skip s
  have hlatch : addressSpace s.W < s.pc.toNat + w.bytes ↔
      addressSpace (latchCondition skip s).W < (latchCondition skip s).pc.toNat + w.bytes := by rw [hW, hpc]
  simp only [hlatch]
  obtain ⟨-, h⟩ | ⟨-, h⟩ := predicated_cases h
  · exact immediateFetch_faultsExactly w (f := pushResult w.bytes imm.toNat) (fun _ => rfl) _ t (hstatus.trans hr) h
  · exact immediateFetch_faultsExactly w (f := id) (fun _ => rfl) _ t (hstatus.trans hr) h

/-- The address lies below the condition byte, if there is one (R155). -/
theorem accessPastRam_latchCondition (skip : Bool) (w : Width) (s : State) :
    AccessPastRam w (latchCondition skip s) ↔
      addressSpace s.W < s.D.value (operandDepth skip) s.W.bytes + w.bytes := by
  obtain ⟨_, hafter, rfl, hW, -⟩ := latchCondition_spec skip s
  have hd : operandDepth skip ≤ 1 := by cases skip <;> decide
  have hw := s.W.bytes_le
  rw [AccessPastRam, hW, hafter.value 0 s.W.bytes (by omega), Nat.add_zero]

/-- So do the selectors. -/
theorem unmatchedSelector_latchCondition (skip : Bool) (w : Width) (s : State) :
    (∃ j, j < w.bytes ∧ findDevice (latchCondition skip s).devices ((latchCondition skip s).D.peek j) = none) ↔
      ∃ j, j < w.bytes ∧ findDevice s.devices (s.D.peek (operandDepth skip + j)) = none := by
  have hw := w.bytes_le
  refine exists_congr fun j => and_congr_right fun hj => ?_
  rw [latchCondition_peek skip s (by omega), (Changes.latch skip s).1.devices]

/-- Settles O15: `lit`, `store`, `load` and `dev` each have one cause; a halt ends Halted, and the effects of the last
case keep the status. -/
theorem panicExactlyWhenDue : Obligations.PanicExactlyWhenDue := by
  intro i s t c hr h
  cases i
  case lit skip w imm =>
    rw [(exec_lit_faultsExactly skip w imm).panic_iff hr h]
    cases c <;> simp [PanicDue]
  case store skip w =>
    rw [(predicated_faultsExactly skip (storeEffect_faultsExactly w)).panic_iff hr h, accessPastRam_latchCondition]
    cases c <;> simp [PanicDue]
  case load skip w =>
    rw [(predicated_faultsExactly skip (loadEffect_faultsExactly w)).panic_iff hr h, accessPastRam_latchCondition]
    cases c <;> simp [PanicDue]
  case dev skip w =>
    rw [(predicated_faultsExactly skip (devEffect_faultsExactly w)).panic_iff hr h, unmatchedSelector_latchCondition]
    cases c <;> simp [PanicDue]
  case halt => cases h; simp [PanicDue]
  case diag skip item =>
    rw [(predicated_faultsExactly skip ((diagEffect_keepsStatus item).neverFaults c)).panic_iff hr h]
    simp [PanicDue]
  all_goals
    refine ((predicated_faultsExactly _ (KeepsStatus.neverFaults ?_ c)).panic_iff hr h c).trans ?_
    · intro u v h; cases h; rfl
    · simp [PanicDue]

end Sys2Proof.Machine
end
